-- ==== Sys2Proof/Word.lean ====
section
/-! DEFINITION. The widths of the values this block handles (spec/00_scope.md R5, R7: every value is unsigned).
A register number is the 4-bit field that selects it, an address and the program counter are 12 bits. -/

namespace Sys2Proof

/-- A memory byte or the contents of a data register or timer (R5: width 8). -/
abbrev Byte := BitVec 8

/-- One instruction word (R5, R48: 16 bits). -/
abbrev Word := BitVec 16

/-- A value of `pc`, of `I` or of a return address (R5, R15, R16, R18: width 12). -/
abbrev Addr := BitVec 12

/-- A 4-bit field of an instruction: a register number `x`, `y` or the sprite height `n` (R50). -/
abbrev Nibble := BitVec 4

end Sys2Proof
end

