-- ==== Sys2Proof/Config.lean ====
section
/-! DEFINITION. What is fixed for a run and is not state (spec/10_state.md R31): the kinds of the configuration rows
of spec/00_scope.md R6, the 35 pattern names that index the duration table, and the values the spec leaves OPEN, each
an uninterpreted constant that no proof can evaluate. The values that this hardware takes for the settled rows are in
Machine/Parameters.lean. -/

namespace Sys2Proof

/-- The 35 instruction patterns of R52, in the table's order. They index `DUR` (R10); the instructions with their
operands are `Instr` in Syntax.lean. -/
inductive Pattern
  | sys | cls | ret | jp | call | seByte | sneByte | seReg | ldByte | addByte | ldReg | orReg | andReg | xorReg
  | addReg | sub | shr | subn | shl | sneReg | ldI | jpV0 | rnd | drw | skp | sknp | ldVxDt | ldVxK | ldDtVx
  | ldStVx | addI | ldF | ldB | ldMemVx | ldVxMem
  deriving DecidableEq, Repr

/-- `ADDR_WRAP` of R6: what a data address past 0xFFF does. -/
inductive AddrMode
  /-- the address is taken modulo 4096 -/
  | wrap
  /-- `AddressOverflow` is raised -/
  | fault
  deriving DecidableEq, Repr

/-- The configuration rows of R6 that choose between two readings of an instruction. -/
structure Quirks where
  /-- `ADDR_WRAP` (R36) -/
  addrWrap : AddrMode
  /-- `SUB_FLAG_STRICT` (R88, R90) -/
  subFlagStrict : Bool
  /-- `SHIFT_USES_VY` (R89, R91) -/
  shiftUsesVy : Bool
  /-- `LOGIC_RESETS_VF` (R84 to R86) -/
  logicResetsVf : Bool
  /-- `LDST_INCREMENTS_I` (R97, R98) -/
  ldstIncrementsI : Bool
  /-- `JUMP_OFFSET_VX` (R79) -/
  jumpOffsetVx : Bool
  /-- `DRW_WRAP_START` (R106) -/
  drwWrapStart : Bool
  deriving DecidableEq, Repr

/-- The random byte of the n-th executed `Cxkk` (R6 `RNG`, R92): any byte, under no law. FREE VALUE, log entry 3. -/
opaque Config.drawByte : Nat → Byte

/-- An uninterpreted rational per pattern, from which the OPEN `DUR(p)` of R10 is made. Log entry 4. -/
opaque Config.rawDuration : Pattern → Rat

/-- An uninterpreted rational, from which the OPEN `DUR_UNMATCHED` of R6 is made. Log entry 4. -/
opaque Config.rawDurationUnmatched : Rat

/-- An uninterpreted number, from which the OPEN `CLOCK_HZ_INIT` of R6 is made. Log entry 5. -/
opaque Config.rawClockHzInit : Nat

/-- The OPEN `ACCURATE_INIT` of R6. Log entry 5. -/
opaque Config.accurateInit : Bool

end Sys2Proof
end

