-- ==== Sys2Proof/WellFormed.lean ====
section
/-! DEFINITION. Which terms of `Instr` are instructions of this hardware. The field widths already keep every operand
in range; what is left is R53 (spec/30_encoding.md): the words 0x00E0 and 0x00EE are CLS and RET, never SYS. -/

namespace Sys2Proof

/-- R53, R71: `SYS nnn` is a word `0nnn` other than 0x00E0 and 0x00EE. -/
def sysOperandOk (nnn : Addr) : Bool :=
  nnn != 0x0E0#12 && nnn != 0x0EE#12

/-- Every check of the spec on an instruction's operands. -/
def Instr.wellFormed : Instr → Bool
  | .sys nnn => sysOperandOk nnn
  | .cls => true
  | .ret => true
  | .jp _ => true
  | .call _ => true
  | .seByte _ _ => true
  | .sneByte _ _ => true
  | .seReg _ _ => true
  | .ldByte _ _ => true
  | .addByte _ _ => true
  | .ldReg _ _ => true
  | .orReg _ _ => true
  | .andReg _ _ => true
  | .xorReg _ _ => true
  | .addReg _ _ => true
  | .sub _ _ => true
  | .shr _ _ => true
  | .subn _ _ => true
  | .shl _ _ => true
  | .sneReg _ _ => true
  | .ldI _ => true
  | .jpV0 _ => true
  | .rnd _ _ => true
  | .drw _ _ _ => true
  | .skp _ => true
  | .sknp _ => true
  | .ldVxDt _ => true
  | .ldVxK _ => true
  | .ldDtVx _ => true
  | .ldStVx _ => true
  | .addI _ => true
  | .ldF _ => true
  | .ldB _ => true
  | .ldMemVx _ => true
  | .ldVxMem _ => true

end Sys2Proof
end

