-- ==== Sys2Proof/Decode.lean ====
section
/-! DEFINITION. Decoding and encoding (spec/30_encoding.md). Every word decodes: to one of the 35 instructions, or by
name to `unmatched` (R54, R55). The encoder follows, from the same formats (R49). The rows of R52 are here as data as
well (`Pattern.value`, `Pattern.mask`), for the statements that hold the decoder against the table. -/

namespace Sys2Proof

/-! ## The fields of a word (R50) and the formats that lay them out (R49) -/

/-- The major opcode `w[15:12]` (R49). -/
def fieldOp (w : Word) : Nibble := w.extractLsb' 12 4

/-- `nnn = w[11:0]` (R50). -/
def fieldNnn (w : Word) : Addr := w.extractLsb' 0 12

/-- `x = w[11:8]` (R50). -/
def fieldX (w : Word) : Nibble := w.extractLsb' 8 4

/-- `y = w[7:4]` (R50). -/
def fieldY (w : Word) : Nibble := w.extractLsb' 4 4

/-- `kk = w[7:0]` (R50). -/
def fieldKk (w : Word) : Byte := w.extractLsb' 0 8

/-- `n = w[3:0]` (R50). -/
def fieldN (w : Word) : Nibble := w.extractLsb' 0 4

/-- Formats `NNN` and, with a fixed `nnn`, `N` (R49). -/
def wordNnn (op : Nibble) (nnn : Addr) : Word := op ++ nnn

/-- Formats `XKK` and, with a fixed byte, `XFF` (R49). -/
def wordXkk (op x : Nibble) (kk : Byte) : Word := op ++ x ++ kk

/-- Formats `XYN` and, with a fixed nibble, `XY0` (R49). -/
def wordXyn (op x y n : Nibble) : Word := op ++ x ++ y ++ n

/-! ## Decoding (R53, R54, R55) -/

/-- What a word decodes to: an instruction, or by name a word that matches no pattern (R54, R55). -/
inductive Decoded
  /-- one of the 35 patterns -/
  | instr (i : Instr)
  /-- an unmatched word -/
  | unmatched (w : Word)
  deriving DecidableEq, Repr

/-- Words `0nnn`: the fixed words 0x00E0 and 0x00EE take precedence over SYS (R53). -/
def decode0 (w : Word) : Decoded :=
  if w = 0x00E0#16 then .instr .cls
  else if w = 0x00EE#16 then .instr .ret
  else .instr (.sys (fieldNnn w))

/-- Words `8xyN`: the low nibble selects the operation (R52 rows 11 to 19). -/
def decode8 (w : Word) : Decoded :=
  if fieldN w = 0x0#4 then .instr (.ldReg (fieldX w) (fieldY w))
  else if fieldN w = 0x1#4 then .instr (.orReg (fieldX w) (fieldY w))
  else if fieldN w = 0x2#4 then .instr (.andReg (fieldX w) (fieldY w))
  else if fieldN w = 0x3#4 then .instr (.xorReg (fieldX w) (fieldY w))
  else if fieldN w = 0x4#4 then .instr (.addReg (fieldX w) (fieldY w))
  else if fieldN w = 0x5#4 then .instr (.sub (fieldX w) (fieldY w))
  else if fieldN w = 0x6#4 then .instr (.shr (fieldX w) (fieldY w))
  else if fieldN w = 0x7#4 then .instr (.subn (fieldX w) (fieldY w))
  else if fieldN w = 0xE#4 then .instr (.shl (fieldX w) (fieldY w))
  else .unmatched w

/-- Words `ExKK`: the low byte selects the operation (R52 rows 25 and 26). -/
def decodeE (w : Word) : Decoded :=
  if fieldKk w = 0x9E#8 then .instr (.skp (fieldX w))
  else if fieldKk w = 0xA1#8 then .instr (.sknp (fieldX w))
  else .unmatched w

/-- Words `FxKK`: the low byte selects the operation (R52 rows 27 to 35). DEDUCED: 0xF000, which R2 counts among the
words that execute as SYS, is unmatched, as R52, R54 and R55 make it (log entry 19). -/
def decodeF (w : Word) : Decoded :=
  if fieldKk w = 0x07#8 then .instr (.ldVxDt (fieldX w))
  else if fieldKk w = 0x0A#8 then .instr (.ldVxK (fieldX w))
  else if fieldKk w = 0x15#8 then .instr (.ldDtVx (fieldX w))
  else if fieldKk w = 0x18#8 then .instr (.ldStVx (fieldX w))
  else if fieldKk w = 0x1E#8 then .instr (.addI (fieldX w))
  else if fieldKk w = 0x29#8 then .instr (.ldF (fieldX w))
  else if fieldKk w = 0x33#8 then .instr (.ldB (fieldX w))
  else if fieldKk w = 0x55#8 then .instr (.ldMemVx (fieldX w))
  else if fieldKk w = 0x65#8 then .instr (.ldVxMem (fieldX w))
  else .unmatched w

/-- The decode function of R54, total on all 65536 words. It reads only the word. -/
def decode (w : Word) : Decoded :=
  if fieldOp w = 0x0#4 then decode0 w
  else if fieldOp w = 0x1#4 then .instr (.jp (fieldNnn w))
  else if fieldOp w = 0x2#4 then .instr (.call (fieldNnn w))
  else if fieldOp w = 0x3#4 then .instr (.seByte (fieldX w) (fieldKk w))
  else if fieldOp w = 0x4#4 then .instr (.sneByte (fieldX w) (fieldKk w))
  else if fieldOp w = 0x5#4 then (if fieldN w = 0x0#4 then .instr (.seReg (fieldX w) (fieldY w)) else .unmatched w)
  else if fieldOp w = 0x6#4 then .instr (.ldByte (fieldX w) (fieldKk w))
  else if fieldOp w = 0x7#4 then .instr (.addByte (fieldX w) (fieldKk w))
  else if fieldOp w = 0x8#4 then decode8 w
  else if fieldOp w = 0x9#4 then (if fieldN w = 0x0#4 then .instr (.sneReg (fieldX w) (fieldY w)) else .unmatched w)
  else if fieldOp w = 0xA#4 then .instr (.ldI (fieldNnn w))
  else if fieldOp w = 0xB#4 then .instr (.jpV0 (fieldNnn w))
  else if fieldOp w = 0xC#4 then .instr (.rnd (fieldX w) (fieldKk w))
  else if fieldOp w = 0xD#4 then .instr (.drw (fieldX w) (fieldY w) (fieldN w))
  else if fieldOp w = 0xE#4 then decodeE w
  else decodeF w

/-- The decoder on the two bytes of a fetch: the first, at the lower address, is the high byte (R37). -/
def decodeBytes (first second : Byte) : Decoded := decode (first ++ second)

/-! ## Encoding (R49, R52) -/

/-- The word of an instruction. -/
def encode : Instr → Word
  | .sys nnn => wordNnn 0x0#4 nnn
  | .cls => wordNnn 0x0#4 0x0E0#12
  | .ret => wordNnn 0x0#4 0x0EE#12
  | .jp nnn => wordNnn 0x1#4 nnn
  | .call nnn => wordNnn 0x2#4 nnn
  | .seByte x kk => wordXkk 0x3#4 x kk
  | .sneByte x kk => wordXkk 0x4#4 x kk
  | .seReg x y => wordXyn 0x5#4 x y 0x0#4
  | .ldByte x kk => wordXkk 0x6#4 x kk
  | .addByte x kk => wordXkk 0x7#4 x kk
  | .ldReg x y => wordXyn 0x8#4 x y 0x0#4
  | .orReg x y => wordXyn 0x8#4 x y 0x1#4
  | .andReg x y => wordXyn 0x8#4 x y 0x2#4
  | .xorReg x y => wordXyn 0x8#4 x y 0x3#4
  | .addReg x y => wordXyn 0x8#4 x y 0x4#4
  | .sub x y => wordXyn 0x8#4 x y 0x5#4
  | .shr x y => wordXyn 0x8#4 x y 0x6#4
  | .subn x y => wordXyn 0x8#4 x y 0x7#4
  | .shl x y => wordXyn 0x8#4 x y 0xE#4
  | .sneReg x y => wordXyn 0x9#4 x y 0x0#4
  | .ldI nnn => wordNnn 0xA#4 nnn
  | .jpV0 nnn => wordNnn 0xB#4 nnn
  | .rnd x kk => wordXkk 0xC#4 x kk
  | .drw x y n => wordXyn 0xD#4 x y n
  | .skp x => wordXkk 0xE#4 x 0x9E#8
  | .sknp x => wordXkk 0xE#4 x 0xA1#8
  | .ldVxDt x => wordXkk 0xF#4 x 0x07#8
  | .ldVxK x => wordXkk 0xF#4 x 0x0A#8
  | .ldDtVx x => wordXkk 0xF#4 x 0x15#8
  | .ldStVx x => wordXkk 0xF#4 x 0x18#8
  | .addI x => wordXkk 0xF#4 x 0x1E#8
  | .ldF x => wordXkk 0xF#4 x 0x29#8
  | .ldB x => wordXkk 0xF#4 x 0x33#8
  | .ldMemVx x => wordXkk 0xF#4 x 0x55#8
  | .ldVxMem x => wordXkk 0xF#4 x 0x65#8

/-! ## The rows of R52 as data -/

/-- The pattern an instruction belongs to. -/
def Instr.pattern : Instr → Pattern
  | .sys _ => .sys
  | .cls => .cls
  | .ret => .ret
  | .jp _ => .jp
  | .call _ => .call
  | .seByte _ _ => .seByte
  | .sneByte _ _ => .sneByte
  | .seReg _ _ => .seReg
  | .ldByte _ _ => .ldByte
  | .addByte _ _ => .addByte
  | .ldReg _ _ => .ldReg
  | .orReg _ _ => .orReg
  | .andReg _ _ => .andReg
  | .xorReg _ _ => .xorReg
  | .addReg _ _ => .addReg
  | .sub _ _ => .sub
  | .shr _ _ => .shr
  | .subn _ _ => .subn
  | .shl _ _ => .shl
  | .sneReg _ _ => .sneReg
  | .ldI _ => .ldI
  | .jpV0 _ => .jpV0
  | .rnd _ _ => .rnd
  | .drw _ _ _ => .drw
  | .skp _ => .skp
  | .sknp _ => .sknp
  | .ldVxDt _ => .ldVxDt
  | .ldVxK _ => .ldVxK
  | .ldDtVx _ => .ldDtVx
  | .ldStVx _ => .ldStVx
  | .addI _ => .addI
  | .ldF _ => .ldF
  | .ldB _ => .ldB
  | .ldMemVx _ => .ldMemVx
  | .ldVxMem _ => .ldVxMem

/-- The column `match` of R52. -/
def Pattern.value : Pattern → Word
  | .sys => 0x0000#16
  | .cls => 0x00E0#16
  | .ret => 0x00EE#16
  | .jp => 0x1000#16
  | .call => 0x2000#16
  | .seByte => 0x3000#16
  | .sneByte => 0x4000#16
  | .seReg => 0x5000#16
  | .ldByte => 0x6000#16
  | .addByte => 0x7000#16
  | .ldReg => 0x8000#16
  | .orReg => 0x8001#16
  | .andReg => 0x8002#16
  | .xorReg => 0x8003#16
  | .addReg => 0x8004#16
  | .sub => 0x8005#16
  | .shr => 0x8006#16
  | .subn => 0x8007#16
  | .shl => 0x800E#16
  | .sneReg => 0x9000#16
  | .ldI => 0xA000#16
  | .jpV0 => 0xB000#16
  | .rnd => 0xC000#16
  | .drw => 0xD000#16
  | .skp => 0xE09E#16
  | .sknp => 0xE0A1#16
  | .ldVxDt => 0xF007#16
  | .ldVxK => 0xF00A#16
  | .ldDtVx => 0xF015#16
  | .ldStVx => 0xF018#16
  | .addI => 0xF01E#16
  | .ldF => 0xF029#16
  | .ldB => 0xF033#16
  | .ldMemVx => 0xF055#16
  | .ldVxMem => 0xF065#16

/-- The column `mask` of R52. -/
def Pattern.mask : Pattern → Word
  | .sys => 0xF000#16
  | .cls => 0xFFFF#16
  | .ret => 0xFFFF#16
  | .jp => 0xF000#16
  | .call => 0xF000#16
  | .seByte => 0xF000#16
  | .sneByte => 0xF000#16
  | .seReg => 0xF00F#16
  | .ldByte => 0xF000#16
  | .addByte => 0xF000#16
  | .ldReg => 0xF00F#16
  | .orReg => 0xF00F#16
  | .andReg => 0xF00F#16
  | .xorReg => 0xF00F#16
  | .addReg => 0xF00F#16
  | .sub => 0xF00F#16
  | .shr => 0xF00F#16
  | .subn => 0xF00F#16
  | .shl => 0xF00F#16
  | .sneReg => 0xF00F#16
  | .ldI => 0xF000#16
  | .jpV0 => 0xF000#16
  | .rnd => 0xF000#16
  | .drw => 0xF000#16
  | .skp => 0xF0FF#16
  | .sknp => 0xF0FF#16
  | .ldVxDt => 0xF0FF#16
  | .ldVxK => 0xF0FF#16
  | .ldDtVx => 0xF0FF#16
  | .ldStVx => 0xF0FF#16
  | .addI => 0xF0FF#16
  | .ldF => 0xF0FF#16
  | .ldB => 0xF0FF#16
  | .ldMemVx => 0xF0FF#16
  | .ldVxMem => 0xF0FF#16

/-- `(w & mask_p) = match_p` (R52). -/
def Pattern.fits (p : Pattern) (w : Word) : Bool := (w &&& p.mask) == p.value

/-! ## The opcode table's own numbering -/

/-- The word whose bits are `w`, of which the table gives `nbits`: bits above `nbits` are 0. -/
def tableWord (nbits w : Nat) : Word := BitVec.ofNat 16 (w % 2 ^ nbits)

/-- The byte at the lower address of a stored word (R37). -/
def firstByte (w : Word) : Byte := w.extractLsb' 8 8

/-- The byte at the higher address of a stored word (R37). -/
def secondByte (w : Word) : Byte := w.extractLsb' 0 8

/-- The instruction in a `Decoded`, if there is one. -/
def Decoded.instr? : Decoded → Option Instr
  | .instr i => some i
  | .unmatched _ => none

/-- The instruction the decoder reads from a word numbered as the opcode table numbers it: the word is laid out in
memory's byte order and its bytes are given to the decoder. -/
def decodeTableWord (nbits w : Nat) : Option Instr :=
  (decodeBytes (firstByte (tableWord nbits w)) (secondByte (tableWord nbits w))).instr?

end Sys2Proof
end

