-- ==== Sys2Proof/Machine/Parameters.lean ====
section
/-! DEFINITION. The parameters of spec/00_scope.md R5 and R6 at the values this hardware takes, the font of
spec/20_memory.md R42, and the admissible ranges of the parameters the spec leaves OPEN. -/

namespace Sys2Proof.Machine

/-- Bytes of memory (R5, R33). -/
def memSize : Nat := 4096

/-- Where the program is copied and where execution starts after reset (R5, R16, R34). -/
def programOrigin : Nat := 0x200

/-- The longest program `load` accepts, 4096 − 0x200 bytes (R125). -/
def maxRom : Nat := 3584

/-- `STACK_DEPTH` (R6, R18). -/
def stackDepth : Nat := 16

/-- `FONT_BASE` (R6, R34). -/
def fontBase : Nat := 0x000

/-- The settled configuration rows of R6. -/
def quirks : Quirks where
  addrWrap := .wrap
  subFlagStrict := false
  shiftUsesVy := false
  logicResetsVf := false
  ldstIncrementsI := false
  jumpOffsetVx := false
  drwWrapStart := false

/-- `FONT`: 16 glyphs of 5 bytes, top row first (R42). -/
def font : List Byte :=
  [0xF0, 0x90, 0x90, 0x90, 0xF0] ++ [0x20, 0x60, 0x20, 0x20, 0x70] ++
  [0xF0, 0x10, 0xF0, 0x80, 0xF0] ++ [0xF0, 0x10, 0xF0, 0x10, 0xF0] ++
  [0x90, 0x90, 0xF0, 0x10, 0x10] ++ [0xF0, 0x80, 0xF0, 0x10, 0xF0] ++
  [0xF0, 0x80, 0xF0, 0x90, 0xF0] ++ [0xF0, 0x10, 0x20, 0x40, 0x40] ++
  [0xF0, 0x90, 0xF0, 0x90, 0xF0] ++ [0xF0, 0x90, 0xF0, 0x10, 0xF0] ++
  [0xF0, 0x90, 0xF0, 0x90, 0x90] ++ [0xE0, 0x90, 0xE0, 0x90, 0xE0] ++
  [0xF0, 0x80, 0x80, 0x80, 0xF0] ++ [0xE0, 0x90, 0x90, 0x90, 0xE0] ++
  [0xF0, 0x80, 0xF0, 0x80, 0xF0] ++ [0xF0, 0x80, 0xF0, 0x80, 0x80]

/-- `FRAME_US` = 16666.666 µs exactly (R5, R129). -/
def frameUs : Rat := 16666666 / 1000

/-- `DUR(p)`: OPEN, any positive rational up to `FRAME_US` (R10, R129). Every admissible value is a value of the
uninterpreted `Config.rawDuration p`, and an inadmissible one is replaced, so that `DUR` is always admissible and
nothing else is known of it. Log entry 4. -/
def dur (p : Pattern) : Rat :=
  if 0 < Config.rawDuration p ∧ Config.rawDuration p ≤ frameUs then Config.rawDuration p else frameUs

/-- `DUR_UNMATCHED`: OPEN, any positive rational (R6, R55). Log entry 4. -/
def durUnmatched : Rat :=
  if 0 < Config.rawDurationUnmatched then Config.rawDurationUnmatched else frameUs

/-- `CLOCK_HZ_INIT`: OPEN, any positive integer (R6, R26). Log entry 5. -/
def clockHzInit : Nat :=
  if 0 < Config.rawClockHzInit then Config.rawClockHzInit else 1

end Sys2Proof.Machine
end

