-- ==== Sys2Proof/Machine/Flags.lean ====
section
/-! DEFINITION. Every flag the spec computes (spec/42_alu.md R80, R87 to R91; the collision flag of R106 is computed
by the drawing itself, in Machine/Graphics.lean), as a function of the operands read before anything is written. -/

namespace Sys2Proof.Machine

/-- The value a flag-writing instruction leaves in VF (R14, R80): 0x01 or 0x00. -/
def flagByte (f : Bool) : Byte := if f then 0x01#8 else 0x00#8

/-- Carry out of bit 7 of `a + b` (R87). -/
def carryFlag (a b : Byte) : Bool := decide (a.toNat + b.toNat > 255)

/-- NOT borrow of `a - b` (R88, R90); `strict` is `SUB_FLAG_STRICT`. -/
def notBorrowFlag (strict : Bool) (a b : Byte) : Bool :=
  if strict then decide (a.toNat > b.toNat) else decide (a.toNat ≥ b.toNat)

/-- The bit a right shift by one drops, old bit 0 (R89). -/
def shiftedOutRight (a : Byte) : Bool := a.getLsbD 0

/-- The bit a left shift by one drops, old bit 7 (R91). -/
def shiftedOutLeft (a : Byte) : Bool := a.getLsbD 7

end Sys2Proof.Machine
end

