-- ==== Sys2Proof/Machine/State.lean ====
section
/-! DEFINITION. The state of the block (spec/10_state.md), the model faults (spec/60_exceptions.md R110 to R113), and
the state after reset (R32). Plain data throughout. -/

namespace Sys2Proof.Machine

/-- Memory (R22, R33): a list of (address, byte), addresses strictly rising, that leaves out every byte equal to its
reset value. An unlisted address reads as `Memory.resetByte` (Machine/Memory.lean); `Memory.wf` is the canonical form. -/
abbrev Memory := List Host.Cell

/-- The display (R23), 32 rows of 64 pixels: `disp[y][x]` is the pixel of column x and row y, `true` when lit. The
host's flat row-major grid is `Display.flat` (Machine/Graphics.lean). -/
abbrev Display := Vector (Vector Bool 64) 32

/-- The model faults of R110 to R113: conditions to which the spec gives the block no meaning. They are no traps of
the hardware. SAFE: the machine stops where the original goes on in a way the spec does not know. -/
inductive Fault
  /-- `StackOverflow(pc)`: raised by 2nnn on a full stack (R111), with the address of the CALL. Safe. -/
  | stackOverflow (pc : Addr)
  /-- `KeyIndexOutOfRange(k)`: raised by Ex9E and ExA1 when V[x] = k > 0x0F (R112). Safe. -/
  | keyIndexOutOfRange (k : Byte)
  /-- `AddressOverflow(ea)`: raised by Dxyn, Fx33, Fx55, Fx65 when `ea > 0xFFF` and `ADDR_WRAP = fault` (R113); this
  hardware takes `wrap` and never raises it. Safe. -/
  | addressOverflow (ea : Nat)
  deriving DecidableEq, Repr

/-- Reasons for which the model, not the block, gives no answer. -/
inductive Refusal
  /-- raised only by an arm of `exec` whose instruction has no meaning yet; no arm is left so. Safe. -/
  | notModelled (mnemonic : String)
  deriving DecidableEq, Repr

/-- The life-cycle state `run` (R25). -/
inductive Run
  /-- constructed, nothing loaded -/
  | unloaded
  /-- the source's `Loaded(Paused)` -/
  | paused
  /-- the source's `Loaded(Running)` -/
  | running
  deriving DecidableEq, Repr

/-- Where the run loop stands inside a frame (R116, R127 to R129): what the block does next while it runs. The spec
implies it ("a transfer in progress"); log entry 6. -/
inductive Phase
  /-- a frame begins: timers, then the batch is set up -/
  | frameStart
  /-- the approximate batch of R128, with so many of its K steps left -/
  | batch (left : Nat)
  /-- the cycle-accurate batch of R129 -/
  | timed
  /-- a stalled Fx0A has ended the cycle-accurate batch (R129); publication and sound come next -/
  | frameEnd
  deriving DecidableEq, Repr

/-- The host's moves (R11; R124, R125, R133 to R138). -/
inductive HostOp
  /-- `load(rom)` (R125) -/
  | load (rom : List Byte)
  /-- `reset()` (R124) -/
  | reset
  /-- `setTimingMode(b)` (R135) -/
  | setTimingMode (accurate : Bool)
  /-- `setClockRate(hz)` (R136) -/
  | setClockRate (hz : Int)
  /-- `pause(flag)` (R133) -/
  | pause (flag : Bool)
  /-- `stop()` (R134) -/
  | stop
  /-- `setKey(index, pressed)` (R137) -/
  | setKey (index : Int) (pressed : Bool)
  /-- `pollKeys()`: sixteen `setKey` writes between two steps (R137) -/
  | pollKeys (keys : Vector Bool 16)
  deriving DecidableEq, Repr

/-- The block's calls to the host (R11, R139). -/
inductive Output
  /-- `onDisplayUpdate(snapshot)` (R118) -/
  | displayUpdate (snapshot : Display)
  /-- `onAudioStateChange(b)` (R119, R124) -/
  | audioStateChange (on : Bool)
  deriving DecidableEq, Repr

/-- Everything the block holds. The last four fields are the model's own. -/
structure State where
  /-- data registers V0 to VF (R13); VF is also the flag (R14) -/
  v : Vector Byte 16
  /-- index register I (R15) -/
  i : Addr
  /-- program counter (R16) -/
  pc : Addr
  /-- call stack S, top first (R18); SP is its length -/
  stack : List Addr
  /-- delay timer DT (R21) -/
  dt : Byte
  /-- sound timer ST (R21) -/
  st : Byte
  /-- memory M (R22) -/
  mem : Memory
  /-- display Disp (R23) -/
  disp : Display
  /-- key array Key, `true` when down (R24) -/
  key : Vector Bool 16
  /-- life-cycle state (R25) -/
  run : Run
  /-- timing discipline: `true` is cycle-accurate (R26) -/
  accurate : Bool
  /-- instruction rate of the approximate mode (R26) -/
  clockHz : Nat
  /-- time left in the frame, in µs (R27) -/
  budget : Rat
  /-- the sound state last reported (R28) -/
  audioOn : Bool
  /-- the bytes most recently loaded (R29) -/
  rom : List Byte
  /-- the fault mark (R30) -/
  fault : Option Fault
  /-- MODEL'S OWN: where the run loop stands inside a frame (log entry 6) -/
  phase : Phase
  /-- MODEL'S OWN: how many random bytes were drawn, which selects the next free one (R92, log entry 3) -/
  draws : Nat
  /-- MODEL'S OWN: what the host does at each coming boundary between two events: a move, or nothing (R131, R132, log
  entry 7). An empty list is nothing for ever. -/
  inputs : List (Option HostOp)
  /-- MODEL'S OWN: the calls made to the host so far, the latest first (R139, log entry 8) -/
  outputs : List Output
  deriving DecidableEq, Repr

/-- What a meaning or a step answers. -/
abbrev Result := Host.Outcome State Fault Refusal

/-- The block after `reset()` (R32, R124), as construction and the load of a program of no bytes leave it (R125, R126;
log entry 1). -/
def State.reset : State where
  v := Vector.replicate 16 0#8
  i := 0x000#12
  pc := 0x200#12
  stack := []
  dt := 0#8
  st := 0#8
  mem := []
  disp := Vector.replicate 32 (Vector.replicate 64 false)
  key := Vector.replicate 16 false
  run := .paused
  accurate := Config.accurateInit
  clockHz := clockHzInit
  budget := 0
  audioOn := false
  rom := []
  fault := none
  phase := .frameStart
  draws := 0
  inputs := []
  outputs := []

/-- The block right after construction (R25, R126): `Unloaded`, everything else as at reset (log entry 1). -/
def State.constructed : State := { State.reset with run := .unloaded }

end Sys2Proof.Machine
end

