-- ==== Sys2Proof/Machine/Memory.lean ====
section
/-! DEFINITION. The 4096 bytes of memory (spec/20_memory.md): what they hold at reset, reading and writing one byte,
and the canonical form that both keep. Keys are plain numbers below 4096. -/

namespace Sys2Proof.Machine

/-- What an unlisted address reads as: the contents after reset with no program, the font at `FONT_BASE` and 0x00
everywhere else (R43). -/
def Memory.resetByte (a : Nat) : Byte :=
  if fontBase ≤ a then font.getD (a - fontBase) 0x00#8 else 0x00#8

/-- The byte stored at an address. -/
def Memory.read (a : Nat) : Memory → Byte
  | [] => Memory.resetByte a
  | (k, c) :: m => if k = a then c else Memory.read a m

/-- `m` with one more cell at its front, unless the cell holds what an unlisted address reads as. -/
def Memory.cons (a : Nat) (b : Byte) (m : Memory) : Memory :=
  if b = Memory.resetByte a then m else (a, b) :: m

/-- Store one byte; no other byte changes (R40). -/
def Memory.write (a : Nat) (b : Byte) : Memory → Memory
  | [] => Memory.cons a b []
  | (k, c) :: m =>
    if a < k then Memory.cons a b ((k, c) :: m)
    else if a = k then Memory.cons a b m
    else (k, c) :: Memory.write a b m

/-- Bytes stored at consecutive addresses from `a`, which must not reach past the top of memory. -/
def Memory.writeList (a : Nat) : List Byte → Memory → Memory
  | [], m => m
  | b :: bs, m => Memory.write a b (Memory.writeList (a + 1) bs m)

/-- The canonical form, for the cells at `lo` and above. -/
def Memory.wfFrom (lo : Nat) : Memory → Bool
  | [] => true
  | (k, c) :: m => decide (lo ≤ k) && decide (k < memSize) && (c != Memory.resetByte k) && Memory.wfFrom (k + 1) m

/-- The canonical form of memory: addresses strictly rising and below 4096, no cell equal to its reset value. -/
def Memory.wf (m : Memory) : Bool := Memory.wfFrom 0 m

/-- Memory after `reset()` with this program stored: the font, the program from 0x200, 0x00 elsewhere (R43, R124). -/
def Memory.ofRom (rom : List Byte) : Memory := Memory.writeList programOrigin rom []

end Sys2Proof.Machine
end

