-- ==== Sys2Proof/Machine/Ops.lean ====
section
/-! DEFINITION. The named operations over registers, program counter, stack and memory that the meanings are written
in (spec/00_scope.md R8), and raising a model fault (spec/60_exceptions.md R110). -/

namespace Sys2Proof.Machine

/-! ## Data registers and the flag (R13, R14) -/

/-- `V[x]`. -/
def State.readV (s : State) (x : Nibble) : Byte := s.v[x.toNat]'x.isLt

/-- `V[x] <- b`. -/
def State.writeV (s : State) (x : Nibble) (b : Byte) : State := { s with v := s.v.set x.toNat b x.isLt }

/-- Register VF, the flag (R14). -/
def vf : Nibble := 0xF#4

/-- Write the flag: VF becomes 0x01 or 0x00 (R14, R80). -/
def State.setFlag (s : State) (f : Bool) : State := s.writeV vf (flagByte f)

/-- Write a result, then the flag: the flag is written last (R80). -/
def State.writeResultAndFlag (s : State) (x : Nibble) (b : Byte) (f : Bool) : State := (s.writeV x b).setFlag f

/-! ## I, the timers, memory and the display -/

/-- `I <- a` (R15). -/
def State.setI (s : State) (a : Addr) : State := { s with i := a }

/-- `DT <- b` (R21). -/
def State.setDt (s : State) (b : Byte) : State := { s with dt := b }

/-- `ST <- b` (R21). -/
def State.setSt (s : State) (b : Byte) : State := { s with st := b }

/-- Replace memory. -/
def State.setMem (s : State) (m : Memory) : State := { s with mem := m }

/-- Replace the display. -/
def State.setDisp (s : State) (d : Display) : State := { s with disp := d }

/-- Replace the call stack. -/
def State.setStack (s : State) (l : List Addr) : State := { s with stack := l }

/-! ## The program counter (R16, R65): the last write of every instruction -/

/-- `pc <- t`. -/
def State.setPc (s : State) (t : Addr) : State := { s with pc := t }

/-- `pc <- pc + 2`, modulo 4096. -/
def State.nextInstr (s : State) : State := s.setPc (s.pc + 2#12)

/-- `pc <- pc + 4`, modulo 4096: the next word is skipped. -/
def State.skipInstr (s : State) : State := s.setPc (s.pc + 4#12)

/-- A skip instruction's write of `pc`. -/
def State.skipWhen (s : State) (c : Bool) : State := if c then s.skipInstr else s.nextInstr

/-! ## The call stack (R19, R20) -/

/-- `Push(a)`: raises StackOverflow, with the CALL's own address, when the stack is full (R19, R111). -/
def State.push (s : State) (a : Addr) : Except Fault State :=
  if s.stack.length < stackDepth then .ok (s.setStack (a :: s.stack)) else .error (.stackOverflow s.pc)

/-- What `Pop()` returns: the top entry, or 0x000 when there is none (R20). -/
def State.popped (s : State) : Addr := s.stack.headD 0x000#12

/-- The state `Pop()` leaves: the top entry is gone, an empty stack stays empty (R20). -/
def State.pop (s : State) : State := s.setStack s.stack.tail

/-! ## Data addresses and memory accesses (R36, R40, R41) -/

/-- `ea = I + k`, before `addr` (R36). -/
def State.ea (s : State) (k : Nat) : Nat := s.i.toNat + k

/-- `addr(ea)`: the byte accessed (R36). -/
def addr (mode : AddrMode) (ea : Nat) : Except Fault Nat :=
  if ea ≤ 0xFFF then .ok ea
  else match mode with
    | .wrap => .ok (ea % memSize)
    | .fault => .error (.addressOverflow ea)

/-- `MemRead(ea, 1)` (R41). -/
def memRead (mode : AddrMode) (ea : Nat) (m : Memory) : Except Fault Byte :=
  match addr mode ea with
  | .ok a => .ok (Memory.read a m)
  | .error f => .error f

/-- `MemWrite(ea, 1, b)` (R41). -/
def memWrite (mode : AddrMode) (ea : Nat) (b : Byte) (m : Memory) : Except Fault Memory :=
  match addr mode ea with
  | .ok a => .ok (Memory.write a b m)
  | .error f => .error f

/-- The reads of `n` consecutive bytes from `ea`, in order (R40); the first fault ends them. -/
def loadBytes (mode : AddrMode) (m : Memory) : Nat → Nat → Except Fault (List Byte)
  | _, 0 => .ok []
  | ea, n + 1 =>
    match memRead mode ea m with
    | .error f => .error f
    | .ok b =>
      match loadBytes mode m (ea + 1) n with
      | .error f => .error f
      | .ok bs => .ok (b :: bs)

/-- The writes of bytes to consecutive addresses from `ea`, in order (R40); after a fault no write is kept (R41). -/
def storeBytes (mode : AddrMode) : Nat → List Byte → Memory → Except Fault Memory
  | _, [], m => .ok m
  | ea, b :: bs, m =>
    match memWrite mode ea b m with
    | .error f => .error f
    | .ok m' => storeBytes mode (ea + 1) bs m'

/-- `Fetch(pc)`: the bytes at `pc` and `pc + 1` modulo 4096, the first one high (R37, R38). -/
def State.fetch (s : State) : Word :=
  Memory.read s.pc.toNat s.mem ++ Memory.read (s.pc + 1#12).toNat s.mem

/-- Store a word where `Fetch(pc)` reads it. -/
def State.placeWord (s : State) (first second : Byte) : State :=
  s.setMem (Memory.write (s.pc + 1#12).toNat second (Memory.write s.pc.toNat first s.mem))

/-! ## Ending an instruction -/

/-- An instruction's outcome from its last write, or from the fault its rule raised: then none of its writes is kept
(R64, R66). -/
def finish : Except Fault State → Result
  | .ok s => .next s
  | .error f => .fault f

/-- Raising a model fault in the block (R110): the mark is set, nothing else of what an instruction writes changes,
`pc` is unchanged. The mark keeps the FIRST fault raised (R30). -/
def State.raise (s : State) (f : Fault) : State :=
  { s with fault := match s.fault with
                    | some g => some g
                    | none => some f }

end Sys2Proof.Machine
end

