-- ==== Sys2Proof/Machine/Operands.lean ====
section
/-! DEFINITION. The operand forms of R51 (spec/30_encoding.md): a register, an immediate, and the implicit ones: V0 as
an offset, the register range V0..Vx, the key array. Immediates are unsigned at their natural width (R50). -/

namespace Sys2Proof.Machine

/-- The second operand of an instruction on Vx: `V[y]` or `kk` (R51). -/
inductive Source
  | reg (y : Nibble)
  | imm (kk : Byte)
  deriving DecidableEq, Repr

/-- The value of an operand. -/
def Source.value (s : State) : Source → Byte
  | .reg y => s.readV y
  | .imm kk => kk

/-- The register a shift reads: Vx, or Vy where `SHIFT_USES_VY` (R89, R91). -/
def shiftOperand (usesVy : Bool) (x y : Nibble) : Nibble := if usesVy then y else x

/-- The register `Bnnn` adds: V0, or Vx with x = nnn[11:8] where `JUMP_OFFSET_VX` (R79). -/
def jumpOffsetReg (offsetVx : Bool) (nnn : Addr) : Nibble := if offsetVx then nnn.extractLsb' 8 4 else 0x0#4

/-- The value of register number `k`; only `k ≤ 15` is used. -/
def State.readVNat (s : State) (k : Nat) : Byte := s.readV (BitVec.ofNat 4 k)

/-- V0 to Vx, in order (R97). -/
def State.regRange (s : State) (x : Nibble) : List Byte := (List.range (x.toNat + 1)).map s.readVNat

/-- Write consecutive registers from number `k` (R98). -/
def State.writeRegs (s : State) : Nat → List Byte → State
  | _, [] => s
  | k, b :: bs => State.writeRegs (s.writeV (BitVec.ofNat 4 k) b) (k + 1) bs

/-- Is key `k` down? (R24; a key number above 15 is no key.) -/
def State.keyDown (s : State) (k : Nat) : Bool := s.key.toList.getD k false

/-- The lowest-numbered key that is down, if any (R100). -/
def State.lowestKey (s : State) : Option Nat := (List.range 16).find? s.keyDown

/-- The key that Vx names: KeyIndexOutOfRange above 0x0F (R103, R104, R112). -/
def State.keyOf (s : State) (x : Nibble) : Except Fault Bool :=
  if (s.readV x).toNat > 0x0F then .error (.keyIndexOutOfRange (s.readV x)) else .ok (s.keyDown (s.readV x).toNat)

end Sys2Proof.Machine
end

