-- ==== Sys2Proof/Machine/Alu.lean ====
section
/-! DEFINITION. Register arithmetic and logic (spec/42_alu.md R80 to R92). All operands are read before anything is
written; Vx is written, then VF, so with x = 0xF the flag stays (R80). -/

namespace Sys2Proof.Machine

/-- `V[x] <- b`, no flag, next instruction. -/
def writeAndNext (x : Nibble) (b : Byte) (s : State) : Result := .next (s.writeV x b).nextInstr

/-- `V[x] <- b`, then the flag, next instruction (R80). -/
def writeFlagAndNext (x : Nibble) (b : Byte) (f : Bool) (s : State) : Result :=
  .next (s.writeResultAndFlag x b f).nextInstr

/-- `V[x] <- b` by a logic operation: VF is cleared afterwards only where `LOGIC_RESETS_VF` (R84). -/
def writeLogicAndNext (x : Nibble) (b : Byte) (s : State) : Result :=
  if quirks.logicResetsVf then writeFlagAndNext x b false s else writeAndNext x b s

/-- LD Vx, byte (R81). -/
def execLdByte (x : Nibble) (kk : Byte) (s : State) : Result := writeAndNext x (Source.value s (.imm kk)) s

/-- ADD Vx, byte (R82): modulo 256, no carry. -/
def execAddByte (x : Nibble) (kk : Byte) (s : State) : Result :=
  writeAndNext x (s.readV x + Source.value s (.imm kk)) s

/-- LD Vx, Vy (R83). -/
def execLdReg (x y : Nibble) (s : State) : Result := writeAndNext x (Source.value s (.reg y)) s

/-- OR Vx, Vy (R84). -/
def execOrReg (x y : Nibble) (s : State) : Result := writeLogicAndNext x (s.readV x ||| s.readV y) s

/-- AND Vx, Vy (R85). -/
def execAndReg (x y : Nibble) (s : State) : Result := writeLogicAndNext x (s.readV x &&& s.readV y) s

/-- XOR Vx, Vy (R86). -/
def execXorReg (x y : Nibble) (s : State) : Result := writeLogicAndNext x (s.readV x ^^^ s.readV y) s

/-- ADD Vx, Vy (R87): VF is the carry. -/
def execAddReg (x y : Nibble) (s : State) : Result :=
  writeFlagAndNext x (s.readV x + s.readV y) (carryFlag (s.readV x) (s.readV y)) s

/-- SUB Vx, Vy (R88): VF is NOT borrow of Vx − Vy. -/
def execSub (x y : Nibble) (s : State) : Result :=
  writeFlagAndNext x (s.readV x - s.readV y) (notBorrowFlag quirks.subFlagStrict (s.readV x) (s.readV y)) s

/-- SHR Vx (R89): VF is the bit shifted out. -/
def execShr (x y : Nibble) (s : State) : Result :=
  let a := s.readV (shiftOperand quirks.shiftUsesVy x y)
  writeFlagAndNext x (a >>> 1) (shiftedOutRight a) s

/-- SUBN Vx, Vy (R90): VF is NOT borrow of Vy − Vx. -/
def execSubn (x y : Nibble) (s : State) : Result :=
  writeFlagAndNext x (s.readV y - s.readV x) (notBorrowFlag quirks.subFlagStrict (s.readV y) (s.readV x)) s

/-- SHL Vx (R91): VF is the bit shifted out. -/
def execShl (x y : Nibble) (s : State) : Result :=
  let a := s.readV (shiftOperand quirks.shiftUsesVy x y)
  writeFlagAndNext x (a <<< 1) (shiftedOutLeft a) s

/-- One more random byte was drawn. -/
def State.countDraw (s : State) : State := { s with draws := s.draws + 1 }

/-- RND Vx, byte (R92): the next free byte, ANDed with kk. -/
def execRnd (x : Nibble) (kk : Byte) (s : State) : Result :=
  writeAndNext x (Config.drawByte s.draws &&& kk) s.countDraw

end Sys2Proof.Machine
end

