-- ==== Sys2Proof/Machine/ControlFlow.lean ====
section
/-! DEFINITION. Control transfer (spec/41_control_flow.md R70 to R79), and the unmatched word (spec/30_encoding.md
R55). Targets are absolute and unchecked (R70); a skip skips one word. -/

namespace Sys2Proof.Machine

/-- A word that matches no pattern: nothing but `pc <- pc + 2` (R55). -/
def execUnmatched (s : State) : Result := .next s.nextInstr

/-- SYS addr is a no-op (R71); the address is ignored. -/
def execSys (_nnn : Addr) (s : State) : Result := .next s.nextInstr

/-- RET (R72): an empty stack returns to 0x000. -/
def execRet (s : State) : Result := .next (s.pop.setPc s.popped)

/-- JP addr (R73). -/
def execJp (nnn : Addr) (s : State) : Result := .next (s.setPc nnn)

/-- CALL addr (R74): pushes the address after the CALL. -/
def execCall (nnn : Addr) (s : State) : Result :=
  finish ((s.push (s.pc + 2#12)).map fun t => t.setPc nnn)

/-- Skip when the comparison of Vx with an operand has the wanted outcome. -/
def skipIfEqual (wanted : Bool) (x : Nibble) (src : Source) (s : State) : Result :=
  .next (s.skipWhen ((s.readV x == src.value s) == wanted))

/-- SE Vx, byte (R75). -/
def execSeByte (x : Nibble) (kk : Byte) (s : State) : Result := skipIfEqual true x (.imm kk) s

/-- SNE Vx, byte (R76). -/
def execSneByte (x : Nibble) (kk : Byte) (s : State) : Result := skipIfEqual false x (.imm kk) s

/-- SE Vx, Vy (R77). -/
def execSeReg (x y : Nibble) (s : State) : Result := skipIfEqual true x (.reg y) s

/-- SNE Vx, Vy (R78). -/
def execSneReg (x y : Nibble) (s : State) : Result := skipIfEqual false x (.reg y) s

/-- JP V0, addr (R79): modulo 4096. -/
def execJpV0 (nnn : Addr) (s : State) : Result :=
  .next (s.setPc (nnn + (s.readV (jumpOffsetReg quirks.jumpOffsetVx nnn)).setWidth 12))

end Sys2Proof.Machine
end

