-- ==== Sys2Proof/Machine/Graphics.lean ====
section
/-! DEFINITION. Pixels and the XOR sprite drawing of R106 (spec/45_display.md), as the loops of its pseudocode. -/

namespace Sys2Proof.Machine

/-- `Disp[py][px]`; outside the 64 × 32 grid there is no pixel and the answer is `false`. -/
def Display.pixel (d : Display) (px py : Nat) : Bool :=
  match d[py]? with
  | some row => (row[px]?).getD false
  | none => false

/-- `Disp[py][px] <- not Disp[py][px]`; nothing outside the grid. -/
def Display.toggle (d : Display) (px py : Nat) : Display :=
  match d[py]? with
  | some row => d.setIfInBounds py (row.setIfInBounds px (!(row[px]?).getD false))
  | none => d

/-- The clear display (R105). -/
def Display.clear : Display := Vector.replicate 32 (Vector.replicate 64 false)

/-- The flat row-major grid that the host is given: element y·64 + x is `Disp[y][x]` (R23, R118). -/
def Display.flat (d : Display) : Vector Bool (32 * 64) := d.flatten

/-- One set bit of a sprite at (px, py): clipped, never wrapped; a lit pixel is a hit (R106, R107). -/
def drawPixel (px py : Nat) (dh : Display × Bool) : Display × Bool :=
  if px < 64 ∧ py < 32 then (dh.1.toggle px py, dh.2 || dh.1.pixel px py) else dh

/-- The pixels `c, c + 1, …` of a sprite row (as many as the count says); bit 7 is the leftmost (R106). -/
def drawRowFrom (x0 py : Nat) (b : Byte) : Nat → Nat → Display × Bool → Display × Bool
  | _, 0, dh => dh
  | c, left + 1, dh =>
    drawRowFrom x0 py b (c + 1) left (if b.getLsbD (7 - c) then drawPixel (x0 + c) py dh else dh)

/-- One row of a sprite: eight pixels from column x0. -/
def drawRow (x0 py : Nat) (b : Byte) (dh : Display × Bool) : Display × Bool := drawRowFrom x0 py b 0 8 dh

/-- The rows of a sprite from row y0 downward. -/
def drawRows (x0 : Nat) : Nat → List Byte → Display × Bool → Display × Bool
  | _, [], dh => dh
  | py, b :: bs, dh => drawRows x0 (py + 1) bs (drawRow x0 py b dh)

/-- The start coordinate of a sprite: the register's value, reduced where `DRW_WRAP_START` (R106). -/
def startCoord (wrapStart : Bool) (b : Byte) (size : Nat) : Nat := if wrapStart then b.toNat % size else b.toNat

end Sys2Proof.Machine
end

