-- ==== Sys2Proof/Machine/DisplayInstr.lean ====
section
/-! DEFINITION. The display instructions (spec/45_display.md R105 to R107). -/

namespace Sys2Proof.Machine

/-- CLS (R105): every pixel off, VF not written. -/
def execCls (s : State) : Result := .next (s.setDisp Display.clear).nextInstr

/-- The display after a sprite of these bytes at Vx, Vy, and the collision flag (R106). -/
def State.sprite (s : State) (x y : Nibble) (bytes : List Byte) : Display × Bool :=
  drawRows (startCoord quirks.drwWrapStart (s.readV x) 64) (startCoord quirks.drwWrapStart (s.readV y) 32) bytes
    (s.disp, false)

/-- DRW Vx, Vy, nibble (R106): the coordinates are read before VF is written, on every execution. -/
def execDrw (x y n : Nibble) (s : State) : Result :=
  finish ((loadBytes quirks.addrWrap s.mem (s.ea 0) n.toNat).map fun bytes =>
    ((s.setDisp (s.sprite x y bytes).1).setFlag (s.sprite x y bytes).2).nextInstr)

end Sys2Proof.Machine
end

