-- ==== Sys2Proof/Machine/IndexMemory.lean ====
section
/-! DEFINITION. The index register and memory transfer (spec/43_index_memory.md R93 to R98). The one addressing mode is
through I with an implicit offset; I is not changed by an access. -/

namespace Sys2Proof.Machine

/-- LD I, addr (R93). -/
def execLdI (nnn : Addr) (s : State) : Result := .next (s.setI nnn).nextInstr

/-- ADD I, Vx (R94): modulo 4096, VF is not written. -/
def execAddI (x : Nibble) (s : State) : Result := .next (s.setI (s.i + (s.readV x).setWidth 12)).nextInstr

/-- The glyph address of R95: the digit is not masked. -/
def glyphAddr (digit : Byte) : Addr := BitVec.ofNat 12 (fontBase + 5 * digit.toNat)

/-- LD F, Vx (R95). -/
def execLdF (x : Nibble) (s : State) : Result := .next (s.setI (glyphAddr (s.readV x))).nextInstr

/-- The decimal digits of a byte: hundreds, tens, ones (R96). -/
def decimalDigits (v : Byte) : List Byte :=
  [BitVec.ofNat 8 (v.toNat / 100), BitVec.ofNat 8 (v.toNat / 10 % 10), BitVec.ofNat 8 (v.toNat % 10)]

/-- Store bytes at I, I + 1, … in order (R40, R41). -/
def State.storeAtI (s : State) (bytes : List Byte) : Except Fault State :=
  (storeBytes quirks.addrWrap (s.ea 0) bytes s.mem).map s.setMem

/-- `I <- I + x + 1` after a register transfer, only where `LDST_INCREMENTS_I` (R97, R98). -/
def State.advanceI (s : State) (x : Nibble) : State :=
  if quirks.ldstIncrementsI then s.setI (s.i + x.setWidth 12 + 1#12) else s

/-- LD B, Vx (R96). -/
def execLdB (x : Nibble) (s : State) : Result :=
  finish ((s.storeAtI (decimalDigits (s.readV x))).map State.nextInstr)

/-- LD [I], Vx (R97): V0 to Vx. -/
def execLdMemVx (x : Nibble) (s : State) : Result :=
  finish ((s.storeAtI (s.regRange x)).map fun t => (t.advanceI x).nextInstr)

/-- LD Vx, [I] (R98): V0 to Vx. -/
def execLdVxMem (x : Nibble) (s : State) : Result :=
  finish ((loadBytes quirks.addrWrap s.mem (s.ea 0) (x.toNat + 1)).map fun bytes =>
    ((s.writeRegs 0 bytes).advanceI x).nextInstr)

end Sys2Proof.Machine
end

