-- ==== Sys2Proof/Machine/TimersKeys.lean ====
section
/-! DEFINITION. Timers and keys (spec/44_timers_keys.md R99 to R104). The timers' decrement is no instruction; it is in
Machine/RunLoop.lean. -/

namespace Sys2Proof.Machine

/-- LD Vx, DT (R99). -/
def execLdVxDt (x : Nibble) (s : State) : Result := writeAndNext x s.dt s

/-- LD Vx, K (R100): the lowest key that is down; with none, nothing changes and the instruction is tried again. -/
def execLdVxK (x : Nibble) (s : State) : Result :=
  match s.lowestKey with
  | some k => writeAndNext x (BitVec.ofNat 8 k) s
  | none => .next s

/-- LD DT, Vx (R101). -/
def execLdDtVx (x : Nibble) (s : State) : Result := .next (s.setDt (s.readV x)).nextInstr

/-- LD ST, Vx (R102). -/
def execLdStVx (x : Nibble) (s : State) : Result := .next (s.setSt (s.readV x)).nextInstr

/-- SKP Vx (R103): KeyIndexOutOfRange when Vx > 0x0F. -/
def execSkp (x : Nibble) (s : State) : Result := finish ((s.keyOf x).map fun down => s.skipWhen down)

/-- SKNP Vx (R104): KeyIndexOutOfRange when Vx > 0x0F. -/
def execSknp (x : Nibble) (s : State) : Result := finish ((s.keyOf x).map fun down => s.skipWhen (!down))

end Sys2Proof.Machine
end

