-- ==== Sys2Proof/Machine/HostOps.lean ====
section
/-! DEFINITION. The host's moves on the block (spec/70_reset_and_hazards.md R124, R125, R133 to R138). Each takes effect
between two steps (R132). A refused move leaves the state unchanged and is no fault (R114). -/

namespace Sys2Proof.Machine

/-- A call to the host, the latest first. -/
def State.emit (s : State) (o : Output) : State := { s with outputs := o :: s.outputs }

/-- `onAudioStateChange(false)` and `audioOn <- false`, if the sound was on (R124). -/
def State.audioOff (s : State) : State :=
  if s.audioOn then { s with audioOn := false }.emit (.audioStateChange false) else s

/-- `reset()` (R124). `accurate`, `clockHz`, `rom`, the fault mark and the model's own counter and lists stay. -/
def State.hostReset (s : State) : State :=
  { s.audioOff with
    v := Vector.replicate 16 0x00#8
    i := 0x000#12
    dt := 0x00#8
    st := 0x00#8
    stack := []
    pc := 0x200#12
    mem := Memory.ofRom s.rom
    disp := Vector.replicate 32 (Vector.replicate 64 false)
    key := Vector.replicate 16 false
    budget := 0
    run := .paused
    phase := .frameStart }

/-- `load(rom)` (R125): refused when the program does not fit. -/
def State.hostLoad (s : State) (rom : List Byte) : State :=
  if rom.length ≤ maxRom then { s with rom := rom }.hostReset else s

/-- `pause(flag)` (R133). Leaving `Running` abandons the rest of the frame (R132), and the first frame after a start is
a new one (R133). -/
def State.hostPause (s : State) (flag : Bool) : State :=
  match flag, s.run with
  | true, .running => { s with run := .paused, phase := .frameStart }
  | false, .paused => { s with run := .running, phase := .frameStart }
  | true, .paused => s
  | true, .unloaded => s
  | false, .running => s
  | false, .unloaded => s

/-- `setTimingMode(b)` (R135): always resets, but in `Unloaded` only the mode is recorded. -/
def State.hostSetTimingMode (s : State) (b : Bool) : State :=
  match s.run with
  | .unloaded => { s with accurate := b }
  | .paused => { s with accurate := b }.hostReset
  | .running => { s with accurate := b }.hostReset

/-- `setClockRate(hz)` (R136): rejected unless positive. -/
def State.hostSetClockRate (s : State) (hz : Int) : State :=
  if 0 < hz then { s with clockHz := hz.toNat } else s

/-- `setKey(index, pressed)` (R137): refused outside 0 to 15. -/
def State.hostSetKey (s : State) (index : Int) (pressed : Bool) : State :=
  if 0 ≤ index ∧ index ≤ 15 then { s with key := s.key.setIfInBounds index.toNat pressed } else s

/-- A move of the host. -/
def State.hostOp (s : State) : HostOp → State
  | .load rom => s.hostLoad rom
  | .reset => s.hostReset
  | .setTimingMode b => s.hostSetTimingMode b
  | .setClockRate hz => s.hostSetClockRate hz
  | .pause flag => s.hostPause flag
  | .stop => s.hostPause true
  | .setKey index pressed => s.hostSetKey index pressed
  | .pollKeys keys => { s with key := keys }

/-- The host's moves that boot a program in approximate mode at `hz` instructions a second (R126, R135, R136): placed
in `inputs`, they run it from `State.constructed` or `State.reset` (log entry 2). -/
def bootInputs (hz : Int) (rom : List Byte) : List (Option HostOp) :=
  [some (.setTimingMode false), some (.setClockRate hz), some (.load rom), some (.pause false)]

end Sys2Proof.Machine
end

