-- ==== Sys2Proof/Machine/RunLoop.lean ====
section
/-! DEFINITION. One decode-execute step (spec/40_decode_cycle.md R64), the frame of spec/60_exceptions.md R116 to R119
and the two batches of spec/70_reset_and_hazards.md R127 to R129. A step of the machine is ONE EVENT of the run loop: a
host move, the start of a frame, one decode-execute step, or the end of a frame (log entry 6). -/

namespace Sys2Proof.Machine

/-! ## The decode-execute step (R64) -/

/-- What the word at `pc` decodes to. Fetching has no side effect (R129). -/
def State.nextDecoded (s : State) : Decoded := decodeBytes (firstByte s.fetch) (secondByte s.fetch)

/-- The duration of R64, R67: by pattern only. -/
def durationOf : Decoded → Rat
  | .instr i => dur i.pattern
  | .unmatched _ => durUnmatched

/-- Executing a decoded word (R64). -/
def execDecoded (d : Decoded) (s : State) : Result :=
  match d with
  | .instr i => exec i s
  | .unmatched _ => execUnmatched s

/-- A step stalls when it is Fx0A and no key is down (R64, R100). -/
def stalls (d : Decoded) (s : State) : Bool :=
  match d with
  | .instr i => decide (i.pattern = .ldVxK) && s.lowestKey.isNone
  | .unmatched _ => false

/-- The outcomes of R64: `Done(s', d)`, `Stalled(s', d)`, `Fault(f)`; and, apart from them, an instruction the model
gives no meaning. -/
inductive StepOutcome
  | done (s : State) (d : Rat)
  | stalled (s : State) (d : Rat)
  | fault (f : Fault)
  | refused (r : Refusal)

/-- One decode-execute step (R64). -/
def decodeExecute (s : State) : StepOutcome :=
  match execDecoded s.nextDecoded s with
  | .next t => if stalls s.nextDecoded s then .stalled t (durationOf s.nextDecoded)
              else .done t (durationOf s.nextDecoded)
  | .fault f => .fault f
  | .refused r => .refused r

/-! ## The frame (R116) -/

/-- A timer's decrement: it stops at 0 (R117). -/
def tick (t : Byte) : Byte := if t.toNat > 0 then t - 1#8 else t

/-- Step 1 of a frame (R117). -/
def State.tickTimers (s : State) : State := { s with dt := tick s.dt, st := tick s.st }

/-- `K = floor(clockHz / 60)` (R128). -/
def batchSize (clockHz : Nat) : Nat := clockHz / 60

/-- `min(budget + FRAME_US, FRAME_US)` (R129). -/
def replenish (budget : Rat) : Rat := if budget + frameUs ≤ frameUs then budget + frameUs else frameUs

/-- The set-up of a frame's batch, by the timing mode (R127, R128, R129). -/
def State.beginBatch (s : State) : State :=
  if s.accurate then { s with budget := replenish s.budget, phase := .timed }
  else { s with phase := .batch (batchSize s.clockHz) }

/-- Step 3 of a frame: publish the display (R118). -/
def State.publish (s : State) : State := s.emit (.displayUpdate s.disp)

/-- Step 4 of a frame: evaluate the sound, report a change (R119). -/
def State.evalSound (s : State) : State :=
  let on := decide (s.st.toNat > 0)
  if on != s.audioOn then { s with audioOn := on }.emit (.audioStateChange on) else s

/-- The end of a frame: steps 3 and 4, and the next frame is to come (R116). -/
def State.finishFrame (s : State) : State := { s.publish.evalSound with phase := .frameStart }

/-! ## The batches (R128, R129) -/

/-- One of the K steps of the approximate batch, `left` of them remaining after it. A stalled step counts (R128). -/
def approximateStep (left : Nat) (s : State) : Result :=
  match decodeExecute s with
  | .done t _ => .next { t with phase := .batch left }
  | .stalled t _ => .next { t with phase := .batch left }
  | .fault f => .next ({ s with phase := .batch left }.raise f)
  | .refused r => .refused r

/-- One turn of the cycle-accurate batch's loop (R129): the instruction runs if its duration fits the budget, which is
charged in any case; a stall ends the batch; an instruction that does not fit waits for the next frame. -/
def accurateStep (s : State) : Result :=
  if s.budget < durationOf s.nextDecoded then .next s.finishFrame
  else match decodeExecute s with
    | .done t d => .next { t with budget := t.budget - d }
    | .stalled t d => .next { t with budget := t.budget - d, phase := .frameEnd }
    | .fault f => .next ({ s with budget := s.budget - durationOf s.nextDecoded }.raise f)
    | .refused r => .refused r

/-- What the running block does next (R127). -/
def runningStep (s : State) : Result :=
  match s.phase with
  | .frameStart => .next s.tickTimers.beginBatch
  | .batch 0 => .next s.finishFrame
  | .batch (left + 1) => approximateStep left s
  | .timed => accurateStep s
  | .frameEnd => .next s.finishFrame

/-- The block by itself, with no move of the host: a marked fault stops it (R110), and outside `Running` nothing
happens (R123, R127). -/
def blockStep (s : State) : Result :=
  match s.fault with
  | some f => .fault f
  | none =>
    match s.run with
    | .unloaded => .next s
    | .paused => .next s
    | .running => runningStep s

/-- The inputs after the coming boundary. -/
def State.setInputs (s : State) (l : List (Option HostOp)) : State := { s with inputs := l }

/-- One step of the machine: the host's move at this boundary if it makes one, else the block's next event (R131,
R132). -/
def machineStep (s : State) : Result :=
  match s.inputs with
  | some op :: rest => .next ((s.setInputs rest).hostOp op)
  | none :: rest => blockStep (s.setInputs rest)
  | [] => blockStep s

/-- The block running, no fault marked, one step of an approximate batch due, and no move of the host before it. -/
def State.aboutToExecute (s : State) : State :=
  { s with run := .running, accurate := false, fault := none, phase := .batch 1, inputs := none :: s.inputs }

end Sys2Proof.Machine
end

