-- ==== Sys2Proof/Machine/Step.lean ====
section
/-! DEFINITION. The step of the machine and the state whose next step runs a given word. Both only call
Machine/RunLoop.lean and Machine/Ops.lean. -/

namespace Sys2Proof.Machine

/-- One step: a host move or one event of the run loop. -/
def step (s : State) : Host.Outcome State Fault Refusal := machineStep s

/-- `s` with the instruction word stored where `Fetch(pc)` reads it, and everything that lets the very next step run
it: the block `Running` with no fault marked, in an approximate batch with one step left, the host making no move
before it (log entry 2). -/
def State.withFetchWord (s : State) (nbits w : Nat) : State :=
  (s.placeWord (firstByte (tableWord nbits w)) (secondByte (tableWord nbits w))).aboutToExecute

end Sys2Proof.Machine
end

