-- ==== Sys2Proof/Safety.lean ====
section
/-! DEFINITION. The terms the claims use: what an instruction may change (a frame), what no instruction touches
(spec/40_decode_cycle.md R69), the invariant every step keeps, a run that is not stopped, and the closed form of a
sprite's pixels. -/

namespace Sys2Proof.Machine

/-! ## Frames -/

/-- The parts of the block an instruction can write: one data register, I, the stack, a timer, one byte of memory, the
display, and the model's count of random draws. The program counter is apart: every instruction writes it (R64). -/
inductive Part
  | v (x : Nibble)
  | i
  | stack
  | dt
  | st
  | mem (a : Nat)
  | disp
  | draws

/-- The state no instruction reads or writes (R69; the key array, which instructions only read, R24; the fault mark, R66),
and the model's own bookkeeping of the run loop. -/
def SameControl (s t : State) : Prop :=
  t.key = s.key ∧ t.run = s.run ∧ t.accurate = s.accurate ∧ t.clockHz = s.clockHz ∧ t.budget = s.budget ∧
  t.audioOn = s.audioOn ∧ t.rom = s.rom ∧ t.fault = s.fault ∧ t.phase = s.phase ∧ t.inputs = s.inputs ∧
  t.outputs = s.outputs

/-- From `s` to `t` nothing changed but the program counter and the parts in `writes`. Memory is compared byte by byte,
through the read of one byte. -/
def Frame (writes : Part → Prop) (s t : State) : Prop :=
  (∀ x, ¬ writes (.v x) → t.readV x = s.readV x) ∧
  (¬ writes .i → t.i = s.i) ∧
  (¬ writes .stack → t.stack = s.stack) ∧
  (¬ writes .dt → t.dt = s.dt) ∧
  (¬ writes .st → t.st = s.st) ∧
  (∀ a, ¬ writes (.mem a) → Memory.read a t.mem = Memory.read a s.mem) ∧
  (¬ writes .disp → t.disp = s.disp) ∧
  (¬ writes .draws → t.draws = s.draws) ∧
  SameControl s t

/-- The part of the state that instructions other than DRW read: all but the display, ST and the control state. -/
def SameReadable (s t : State) : Prop :=
  t.v = s.v ∧ t.i = s.i ∧ t.pc = s.pc ∧ t.stack = s.stack ∧ t.dt = s.dt ∧ t.mem = s.mem ∧ t.key = s.key ∧
  t.draws = s.draws

/-- The address stored to, or read, for offset `k` from I: the meaning's own address functions (R36). -/
def dataAddr (s : State) (k a : Nat) : Prop := addr quirks.addrWrap (s.ea k) = .ok a

/-! ## The invariant -/

/-- What holds of every state of the block that a run from a good state reaches. -/
structure Inv (s : State) : Prop where
  /-- memory is in canonical form: 4096 bytes, each cell once (R22, R33) -/
  memWf : s.mem.wf = true
  /-- at most 16 return addresses (R18) -/
  stackBound : s.stack.length ≤ stackDepth
  /-- the program fits above 0x200 (R29, R125) -/
  romBound : s.rom.length ≤ maxRom
  /-- the clock rate is positive (R26, R136) -/
  clockPos : 0 < s.clockHz
  /-- the budget is not negative (R27, R130) -/
  budgetNonneg : 0 ≤ s.budget
  /-- nor above one frame (R130) -/
  budgetLe : s.budget ≤ frameUs
  /-- a block that does not run stands at the start of a frame (R132, R133) -/
  idlePhase : s.run ≠ .running → s.phase = .frameStart
  /-- a cycle-accurate batch runs only in that mode (R127) -/
  timedMode : s.phase = .timed ∨ s.phase = .frameEnd → s.accurate = true
  /-- an approximate batch runs only in that mode (R127) -/
  batchMode : ∀ n, s.phase = .batch n → s.accurate = false

/-! ## Runs -/

/-- The host makes no move at the coming boundary. -/
def NoMove (s : State) : Prop := s.inputs = [] ∨ ∃ rest, s.inputs = none :: rest

/-- The state in which the block's event begins when the host makes no move: that boundary has passed. -/
def afterBoundary (s : State) : State := s.setInputs s.inputs.tail

/-- The block runs and no fault is marked (R127). -/
def Live (s : State) : Prop := s.run = .running ∧ s.fault = none

/-- The time a step charges to the frame's budget: the duration of the word, when a cycle-accurate batch executes it
(R129). -/
def charge (s : State) : Rat :=
  match s.inputs with
  | some _ :: _ => 0
  | _ =>
    if s.run = .running ∧ s.fault = none ∧ s.phase = .timed ∧ ¬ s.budget < durationOf s.nextDecoded
    then durationOf s.nextDecoded else 0

/-- The durations that the next `k` steps execute before the next frame begins (R130). -/
def frameTime : Nat → State → Rat
  | 0, _ => 0
  | k + 1, s =>
    match step s with
    | .next t => charge s + (if t.phase = .frameStart then 0 else frameTime k t)
    | .fault _ => charge s
    | .refused _ => charge s

/-! ## Sprites -/

/-- Does the sprite of these rows at (x0, y0) have a set bit at (px, py)? Bit 7 is the leftmost (R106). -/
def spriteBit (x0 y0 : Nat) (bytes : List Byte) (px py : Nat) : Bool :=
  decide (x0 ≤ px) && decide (px < x0 + 8) && decide (y0 ≤ py) && decide (py < y0 + bytes.length) &&
  (bytes.getD (py - y0) 0x00#8).getLsbD (7 - (px - x0))

/-- The `n` sprite bytes at I, through `addr` (R106). -/
def spriteBytes (s : State) (n : Nibble) : List Byte :=
  (List.range n.toNat).map fun r => Memory.read (s.ea r % memSize) s.mem

end Sys2Proof.Machine
end

