-- ==== Sys2Proof/Certificates/Slice0/Obligations.lean ====
section
/-! DEFINITION. The statements about this model, from the numbered rules of spec/. A statement about an instruction says
which word it is (its format in the rule), that it completes, what it leaves, and its frame. -/

open Sys2Proof Sys2Proof.Machine

/-! ## Encoding (spec/30_encoding.md) -/

/-- R49, R50, R52, R53: no operand bit of an encoding is dropped. Decoding the word of any well-formed instruction
gives that instruction, with every operand. -/
def Obligations.DecodeOfEncodeIsTheInstruction : Prop :=
  ∀ i : Instr, i.wellFormed = true → decode (encode i) = .instr i

/-- R53, R54: each word has one meaning. A word that decodes to an instruction is the word of that instruction, and
the instruction is well formed. -/
def Obligations.EncodeOfDecodeIsTheWord : Prop :=
  ∀ (w : Word) (i : Instr), decode w = .instr i → encode i = w ∧ i.wellFormed = true

/-- R52, R53: the decoder follows the rows of the table. An instruction's word fits its own row; a word is unmatched
exactly when it fits no row; two rows that one word fits are the same row, or both of them among rows 1, 2 and 3 with
one of the two row 1 (0nnn), and then the decoder does not choose row 1. -/
def Obligations.DecodeFollowsTheOpcodeTable : Prop :=
  (∀ (w : Word) (i : Instr), decode w = .instr i → i.pattern.fits w = true) ∧
  (∀ w : Word, decode w = .unmatched w ↔ ∀ p : Pattern, p.fits w = false) ∧
  (∀ (w : Word) (p q : Pattern), p.fits w = true → q.fits w = true → p ≠ q →
    (p = .sys ∧ (q = .cls ∨ q = .ret)) ∨ (q = .sys ∧ (p = .cls ∨ p = .ret))) ∧
  (∀ w : Word, Pattern.cls.fits w = true → decode w = .instr .cls) ∧
  (∀ w : Word, Pattern.ret.fits w = true → decode w = .instr .ret)

/-- R55: exactly the listed words are unmatched (the rule's count of them follows and is not stated); such a word
changes nothing but `pc <- pc + 2`, raises nothing, and costs `DUR_UNMATCHED`; in an approximate batch (log entry 6)
the step that meets it does just that. That 0xF000 is one of these words is log entry 19. -/
def Obligations.UnmatchedWordsAreTheListedAndOnlyAdvancePc : Prop :=
  (∀ w : Word, decode w = .unmatched w ↔
    ((fieldOp w = 0x5#4 ∨ fieldOp w = 0x9#4) ∧ fieldN w ≠ 0x0#4) ∨
    (fieldOp w = 0x8#4 ∧ fieldN w ∈ [0x8#4, 0x9#4, 0xA#4, 0xB#4, 0xC#4, 0xD#4, 0xF#4]) ∨
    (fieldOp w = 0xE#4 ∧ fieldKk w ∉ [0x9E#8, 0xA1#8]) ∨
    (fieldOp w = 0xF#4 ∧ fieldKk w ∉
      [0x07#8, 0x0A#8, 0x15#8, 0x18#8, 0x1E#8, 0x29#8, 0x33#8, 0x55#8, 0x65#8])) ∧
  (∀ (w : Word) (s : State), durationOf (.unmatched w) = durUnmatched ∧
    ∃ t, execDecoded (.unmatched w) s = .next t ∧ t.pc = s.pc + 2#12 ∧ Frame (fun _ => False) s t) ∧
  (∀ (s : State) (left : Nat), Live s → NoMove s → s.phase = .batch (left + 1) →
    decode s.fetch = .unmatched s.fetch →
    step s = .next { afterBoundary s with pc := s.pc + 2#12, phase := .batch left })

/-- R58: the ten example decodes. -/
def Obligations.ExampleWordsDecodeAsStated : Prop :=
  decode 0x6200#16 = .instr (.ldByte 2#4 0x00#8) ∧ decode 0xF00A#16 = .instr (.ldVxK 0#4) ∧
  decode 0xF015#16 = .instr (.ldDtVx 0#4) ∧ decode 0xF107#16 = .instr (.ldVxDt 1#4) ∧
  decode 0x4100#16 = .instr (.sneByte 1#4 0x00#8) ∧ decode 0x1204#16 = .instr (.jp 0x204#12) ∧
  decode 0x00E0#16 = .instr .cls ∧ decode 0x0000#16 = .instr (.sys 0x000#12) ∧
  decode 0x5121#16 = .unmatched 0x5121#16 ∧ decode 0xD12F#16 = .instr (.drw 1#4 2#4 15#4)

/-! ## Control transfer (spec/41_control_flow.md) -/

/-- R71: SYS changes nothing but `pc <- pc + 2`. -/
def Obligations.SysOnlyAdvancesPc : Prop :=
  ∀ (nnn : Addr) (s : State),
    (nnn ≠ 0x0E0#12 → nnn ≠ 0x0EE#12 → decode (wordNnn 0x0#4 nnn) = .instr (.sys nnn)) ∧
    ∃ t, exec (.sys nnn) s = .next t ∧ t.pc = s.pc + 2#12 ∧ Frame (fun _ => False) s t

/-- R72, R20: RET pops the top entry into `pc`; an empty stack gives 0x000 and stays empty. -/
def Obligations.RetPopsOrReturnsToZero : Prop :=
  decode 0x00EE#16 = .instr .ret ∧
  ∀ s : State, ∃ t, exec .ret s = .next t ∧
    (∀ a rest, s.stack = a :: rest → t.pc = a ∧ t.stack = rest) ∧
    (s.stack = [] → t.pc = 0x000#12 ∧ t.stack = []) ∧
    Frame (fun p => p = .stack) s t

/-- R73: JP writes the target to `pc` and nothing else. -/
def Obligations.JpSetsPc : Prop :=
  ∀ (nnn : Addr) (s : State), decode (wordNnn 0x1#4 nnn) = .instr (.jp nnn) ∧
    ∃ t, exec (.jp nnn) s = .next t ∧ t.pc = nnn ∧ Frame (fun _ => False) s t

/-- R74, R19, R111: CALL pushes the address after it and jumps; on a full stack it raises StackOverflow. -/
def Obligations.CallPushesAndJumpsOrOverflows : Prop :=
  ∀ (nnn : Addr) (s : State), decode (wordNnn 0x2#4 nnn) = .instr (.call nnn) ∧
    (s.stack.length < 16 →
      ∃ t, exec (.call nnn) s = .next t ∧ t.pc = nnn ∧ t.stack = (s.pc + 2#12) :: s.stack ∧
        Frame (fun p => p = .stack) s t) ∧
    (16 ≤ s.stack.length → exec (.call nnn) s = .fault (.stackOverflow s.pc))

/-- R72, R74: RET undoes the CALL before it. Whatever ran in between, if the stack is again what the CALL left, RET
goes on after the CALL with the stack as it was before it. -/
def Obligations.RetReturnsAfterItsCall : Prop :=
  ∀ (nnn : Addr) (s t u w : State), exec (.call nnn) s = .next t → u.stack = t.stack → exec .ret u = .next w →
    w.pc = s.pc + 2#12 ∧ w.stack = s.stack

/-- R75, R76: SE and SNE with an immediate. -/
def Obligations.SkipsOnByteCompareWithVx : Prop :=
  ∀ (x : Nibble) (kk : Byte) (s : State),
    decode (wordXkk 0x3#4 x kk) = .instr (.seByte x kk) ∧ decode (wordXkk 0x4#4 x kk) = .instr (.sneByte x kk) ∧
    (∃ t, exec (.seByte x kk) s = .next t ∧
      t.pc = (if s.readV x = kk then s.pc + 4#12 else s.pc + 2#12) ∧ Frame (fun _ => False) s t) ∧
    (∃ t, exec (.sneByte x kk) s = .next t ∧
      t.pc = (if s.readV x ≠ kk then s.pc + 4#12 else s.pc + 2#12) ∧ Frame (fun _ => False) s t)

/-- R77, R78: SE and SNE with a register. -/
def Obligations.SkipsOnRegisterCompareVxWithVy : Prop :=
  ∀ (x y : Nibble) (s : State),
    decode (wordXyn 0x5#4 x y 0x0#4) = .instr (.seReg x y) ∧ decode (wordXyn 0x9#4 x y 0x0#4) = .instr (.sneReg x y) ∧
    (∃ t, exec (.seReg x y) s = .next t ∧
      t.pc = (if s.readV x = s.readV y then s.pc + 4#12 else s.pc + 2#12) ∧ Frame (fun _ => False) s t) ∧
    (∃ t, exec (.sneReg x y) s = .next t ∧
      t.pc = (if s.readV x ≠ s.readV y then s.pc + 4#12 else s.pc + 2#12) ∧ Frame (fun _ => False) s t)

/-- R79: JP V0 adds V0, modulo 4096; x is not used. -/
def Obligations.JpV0AddsV0 : Prop :=
  ∀ (nnn : Addr) (s : State), decode (wordNnn 0xB#4 nnn) = .instr (.jpV0 nnn) ∧
    ∃ t, exec (.jpV0 nnn) s = .next t ∧ t.pc.toNat = (nnn.toNat + (s.readV 0x0#4).toNat) % 4096 ∧
      Frame (fun _ => False) s t

/-! ## Register arithmetic and logic (spec/42_alu.md) -/

/-- R81, R82, R83: loading an immediate, adding one modulo 256 with no carry, copying a register. -/
def Obligations.LoadsAndPlainAddWriteVxOnly : Prop :=
  ∀ (x y : Nibble) (kk : Byte) (s : State),
    decode (wordXkk 0x6#4 x kk) = .instr (.ldByte x kk) ∧ decode (wordXkk 0x7#4 x kk) = .instr (.addByte x kk) ∧
    decode (wordXyn 0x8#4 x y 0x0#4) = .instr (.ldReg x y) ∧
    (∃ t, exec (.ldByte x kk) s = .next t ∧ t.readV x = kk ∧ t.pc = s.pc + 2#12 ∧ Frame (fun p => p = .v x) s t) ∧
    (∃ t, exec (.addByte x kk) s = .next t ∧ (t.readV x).toNat = ((s.readV x).toNat + kk.toNat) % 256 ∧
      t.pc = s.pc + 2#12 ∧ Frame (fun p => p = .v x) s t) ∧
    (∃ t, exec (.ldReg x y) s = .next t ∧ t.readV x = s.readV y ∧ t.pc = s.pc + 2#12 ∧
      Frame (fun p => p = .v x) s t)

/-- R84, R85, R86: the logic operations, bit by bit; VF is not written as a flag. -/
def Obligations.LogicOperationsWriteVxOnly : Prop :=
  ∀ (x y : Nibble) (s : State),
    decode (wordXyn 0x8#4 x y 0x1#4) = .instr (.orReg x y) ∧ decode (wordXyn 0x8#4 x y 0x2#4) = .instr (.andReg x y) ∧
    decode (wordXyn 0x8#4 x y 0x3#4) = .instr (.xorReg x y) ∧
    (∃ t, exec (.orReg x y) s = .next t ∧
      (∀ k, (t.readV x).getLsbD k = ((s.readV x).getLsbD k || (s.readV y).getLsbD k)) ∧
      t.pc = s.pc + 2#12 ∧ Frame (fun p => p = .v x) s t) ∧
    (∃ t, exec (.andReg x y) s = .next t ∧
      (∀ k, (t.readV x).getLsbD k = ((s.readV x).getLsbD k && (s.readV y).getLsbD k)) ∧
      t.pc = s.pc + 2#12 ∧ Frame (fun p => p = .v x) s t) ∧
    (∃ t, exec (.xorReg x y) s = .next t ∧
      (∀ k, (t.readV x).getLsbD k = ((s.readV x).getLsbD k ^^ (s.readV y).getLsbD k)) ∧
      t.pc = s.pc + 2#12 ∧ Frame (fun p => p = .v x) s t)

/-- R87: addition modulo 256 with the carry in VF; with x = 0xF only the carry stays (R80). -/
def Obligations.AddSetsCarry : Prop :=
  ∀ (x y : Nibble) (s : State), decode (wordXyn 0x8#4 x y 0x4#4) = .instr (.addReg x y) ∧
    ∃ t, exec (.addReg x y) s = .next t ∧
      (x ≠ vf → (t.readV x).toNat = ((s.readV x).toNat + (s.readV y).toNat) % 256) ∧
      t.readV vf = (if (s.readV x).toNat + (s.readV y).toNat > 255 then 0x01#8 else 0x00#8) ∧
      t.pc = s.pc + 2#12 ∧ Frame (fun p => p = .v x ∨ p = .v vf) s t

/-- R88, R90: subtraction modulo 256, either way round, with NOT borrow in VF. -/
def Obligations.SubtractionsSetNotBorrow : Prop :=
  ∀ (x y : Nibble) (s : State),
    decode (wordXyn 0x8#4 x y 0x5#4) = .instr (.sub x y) ∧ decode (wordXyn 0x8#4 x y 0x7#4) = .instr (.subn x y) ∧
    (∃ t, exec (.sub x y) s = .next t ∧
      (x ≠ vf → (t.readV x).toNat = ((s.readV x).toNat + 256 - (s.readV y).toNat) % 256) ∧
      t.readV vf = (if (s.readV x).toNat ≥ (s.readV y).toNat then 0x01#8 else 0x00#8) ∧
      t.pc = s.pc + 2#12 ∧ Frame (fun p => p = .v x ∨ p = .v vf) s t) ∧
    (∃ t, exec (.subn x y) s = .next t ∧
      (x ≠ vf → (t.readV x).toNat = ((s.readV y).toNat + 256 - (s.readV x).toNat) % 256) ∧
      t.readV vf = (if (s.readV y).toNat ≥ (s.readV x).toNat then 0x01#8 else 0x00#8) ∧
      t.pc = s.pc + 2#12 ∧ Frame (fun p => p = .v x ∨ p = .v vf) s t)

/-- R89, R91: shifts of Vx by one bit, whatever y is, with the bit shifted out in VF. -/
def Obligations.ShiftsMoveVxByOneBit : Prop :=
  ∀ (x y : Nibble) (s : State),
    decode (wordXyn 0x8#4 x y 0x6#4) = .instr (.shr x y) ∧ decode (wordXyn 0x8#4 x y 0xE#4) = .instr (.shl x y) ∧
    (∃ t, exec (.shr x y) s = .next t ∧ (x ≠ vf → (t.readV x).toNat = (s.readV x).toNat / 2) ∧
      (t.readV vf).toNat = (s.readV x).toNat % 2 ∧
      t.pc = s.pc + 2#12 ∧ Frame (fun p => p = .v x ∨ p = .v vf) s t) ∧
    (∃ t, exec (.shl x y) s = .next t ∧ (x ≠ vf → (t.readV x).toNat = (s.readV x).toNat * 2 % 256) ∧
      (t.readV vf).toNat = (s.readV x).toNat / 128 ∧
      t.pc = s.pc + 2#12 ∧ Frame (fun p => p = .v x ∨ p = .v vf) s t)

/-- R92: a random byte ANDed with kk. The byte is the model's free value for this draw (log entry 3), the next draw is
another one, and of the result only that it has no bit outside kk is claimed beside. -/
def Obligations.RndMasksAFreshByte : Prop :=
  ∀ (x : Nibble) (kk : Byte) (s : State), decode (wordXkk 0xC#4 x kk) = .instr (.rnd x kk) ∧
    ∃ t, exec (.rnd x kk) s = .next t ∧ t.readV x = (Config.drawByte s.draws &&& kk) ∧
      (t.readV x &&& ~~~kk) = 0x00#8 ∧ t.draws = s.draws + 1 ∧ t.pc = s.pc + 2#12 ∧
      Frame (fun p => p = .v x ∨ p = .draws) s t

/-! ## Index register and memory (spec/20_memory.md, spec/43_index_memory.md) -/

/-- R93, R94, R95: the writes of I, modulo 4096, with VF untouched and the digit not masked. -/
def Obligations.IndexRegisterWrites : Prop :=
  ∀ (x : Nibble) (nnn : Addr) (s : State),
    decode (wordNnn 0xA#4 nnn) = .instr (.ldI nnn) ∧ decode (wordXkk 0xF#4 x 0x1E#8) = .instr (.addI x) ∧
    decode (wordXkk 0xF#4 x 0x29#8) = .instr (.ldF x) ∧
    (∃ t, exec (.ldI nnn) s = .next t ∧ t.i = nnn ∧ t.pc = s.pc + 2#12 ∧ Frame (fun p => p = .i) s t) ∧
    (∃ t, exec (.addI x) s = .next t ∧ t.i.toNat = (s.i.toNat + (s.readV x).toNat) % 4096 ∧ t.pc = s.pc + 2#12 ∧
      Frame (fun p => p = .i) s t) ∧
    (∃ t, exec (.ldF x) s = .next t ∧ t.i.toNat = (0x000 + 5 * (s.readV x).toNat) % 4096 ∧ t.pc = s.pc + 2#12 ∧
      Frame (fun p => p = .i) s t)

/-- R95, R42: for a digit up to 0xF, LD F leaves I at the five bytes of that digit's glyph, which memory holds after
reset. -/
def Obligations.LdFPointsAtTheGlyph : Prop :=
  ∀ (x : Nibble) (s t : State) (r : Nat), (s.readV x).toNat ≤ 0x0F → exec (.ldF x) s = .next t → r < 5 →
    font[5 * (s.readV x).toNat + r]? = some (Memory.read (t.i.toNat + r) State.reset.mem)

/-- R36: the byte that a data address reaches, under either `ADDR_WRAP`; this hardware takes `wrap`, so that offset k
from I reaches I + k modulo 4096 and nothing else. -/
def Obligations.DataAddressesWrap : Prop :=
  (∀ (mode : AddrMode) (ea : Nat), ea ≤ 0xFFF → addr mode ea = .ok ea) ∧
  (∀ ea : Nat, 0xFFF < ea → addr .wrap ea = .ok (ea % 4096) ∧ addr .fault ea = .error (.addressOverflow ea)) ∧
  (∀ (s : State) (k a : Nat), dataAddr s k a ↔ a = (s.i.toNat + k) % 4096)

/-- R96: the three decimal digits of Vx at I, I + 1, I + 2; I and every other byte unchanged. -/
def Obligations.LdBStoresDecimalDigits : Prop :=
  ∀ (x : Nibble) (s : State), decode (wordXkk 0xF#4 x 0x33#8) = .instr (.ldB x) ∧
    ∃ t, exec (.ldB x) s = .next t ∧
      (s.mem.wf = true → ∀ a, dataAddr s 0 a → (Memory.read a t.mem).toNat = (s.readV x).toNat / 100) ∧
      (s.mem.wf = true → ∀ a, dataAddr s 1 a → (Memory.read a t.mem).toNat = (s.readV x).toNat / 10 % 10) ∧
      (s.mem.wf = true → ∀ a, dataAddr s 2 a → (Memory.read a t.mem).toNat = (s.readV x).toNat % 10) ∧
      t.pc = s.pc + 2#12 ∧ Frame (fun p => ∃ k a, k < 3 ∧ dataAddr s k a ∧ p = .mem a) s t

/-- R97: V0 to Vx stored from I on; I and every other byte unchanged. -/
def Obligations.LdMemStoresV0ToVx : Prop :=
  ∀ (x : Nibble) (s : State), decode (wordXkk 0xF#4 x 0x55#8) = .instr (.ldMemVx x) ∧
    ∃ t, exec (.ldMemVx x) s = .next t ∧
      (s.mem.wf = true → ∀ r : Nibble, r.toNat ≤ x.toNat → ∀ a, dataAddr s r.toNat a →
        Memory.read a t.mem = s.readV r) ∧
      t.pc = s.pc + 2#12 ∧ Frame (fun p => ∃ k a, k ≤ x.toNat ∧ dataAddr s k a ∧ p = .mem a) s t

/-- R98: V0 to Vx loaded from I on; I and every register above Vx unchanged, and all of memory. -/
def Obligations.LdVxLoadsV0ToVx : Prop :=
  ∀ (x : Nibble) (s : State), decode (wordXkk 0xF#4 x 0x65#8) = .instr (.ldVxMem x) ∧
    ∃ t, exec (.ldVxMem x) s = .next t ∧
      (∀ r : Nibble, r.toNat ≤ x.toNat → ∀ a, dataAddr s r.toNat a → t.readV r = Memory.read a s.mem) ∧
      t.pc = s.pc + 2#12 ∧ Frame (fun p => ∃ r : Nibble, r.toNat ≤ x.toNat ∧ p = .v r) s t

/-- R37, R38: the word fetched at `pc`, high byte at the lower address, the second address modulo 4096. -/
def Obligations.FetchIsBigEndianAndWraps : Prop :=
  ∀ s : State, s.fetch.toNat =
    (Memory.read s.pc.toNat s.mem).toNat * 256 + (Memory.read ((s.pc.toNat + 1) % 4096) s.mem).toNat

/-- R46: a store is seen by the next fetch. LD [I], Vx over the word after it makes V0 and V1 the next word. -/
def Obligations.StoreIsSeenByTheNextFetch : Prop :=
  ∀ (x : Nibble) (s t : State), s.mem.wf = true → s.i = s.pc + 2#12 → 1 ≤ x.toNat → exec (.ldMemVx x) s = .next t →
    t.fetch = (s.readV 0#4 ++ s.readV 1#4 : Word)

/-- R22, R44 and log entry 9, the model's own representation: equal contents are equal data. Two canonical memories
that read alike at the 4096 addresses are the same list. -/
def Obligations.CanonicalMemoriesThatReadAlikeAreEqual : Prop :=
  ∀ m m' : Memory, m.wf = true → m'.wf = true → (∀ a, a < 4096 → Memory.read a m = Memory.read a m') → m = m'

/-! ## Timers and keys (spec/44_timers_keys.md) -/

/-- R99, R101, R102: the reads and writes of the timers. -/
def Obligations.TimerReadsAndWrites : Prop :=
  ∀ (x : Nibble) (s : State),
    decode (wordXkk 0xF#4 x 0x07#8) = .instr (.ldVxDt x) ∧ decode (wordXkk 0xF#4 x 0x15#8) = .instr (.ldDtVx x) ∧
    decode (wordXkk 0xF#4 x 0x18#8) = .instr (.ldStVx x) ∧
    (∃ t, exec (.ldVxDt x) s = .next t ∧ t.readV x = s.dt ∧ t.pc = s.pc + 2#12 ∧ Frame (fun p => p = .v x) s t) ∧
    (∃ t, exec (.ldDtVx x) s = .next t ∧ t.dt = s.readV x ∧ t.pc = s.pc + 2#12 ∧ Frame (fun p => p = .dt) s t) ∧
    (∃ t, exec (.ldStVx x) s = .next t ∧ t.st = s.readV x ∧ t.pc = s.pc + 2#12 ∧ Frame (fun p => p = .st) s t)

/-- R100: LD Vx, K takes the lowest key that is down; with none it stalls and changes nothing. -/
def Obligations.KeyWaitTakesLowestKeyOrStalls : Prop :=
  ∀ (x : Nibble) (s : State), decode (wordXkk 0xF#4 x 0x0A#8) = .instr (.ldVxK x) ∧
    (∀ k : Fin 16, s.key[k] = true → (∀ j : Fin 16, j < k → s.key[j] = false) →
      stalls (.instr (.ldVxK x)) s = false ∧
      ∃ t, exec (.ldVxK x) s = .next t ∧ (t.readV x).toNat = k.val ∧ t.pc = s.pc + 2#12 ∧
        Frame (fun p => p = .v x) s t) ∧
    ((∀ k : Fin 16, s.key[k] = false) →
      stalls (.instr (.ldVxK x)) s = true ∧ exec (.ldVxK x) s = .next s)

/-- R103, R104, R112: the skips on the key that Vx names; above 0x0F they raise KeyIndexOutOfRange. -/
def Obligations.KeySkipsTestTheNamedKey : Prop :=
  ∀ (x : Nibble) (s : State),
    decode (wordXkk 0xE#4 x 0x9E#8) = .instr (.skp x) ∧ decode (wordXkk 0xE#4 x 0xA1#8) = .instr (.sknp x) ∧
    (∀ k : Fin 16, (s.readV x).toNat = k.val →
      (∃ t, exec (.skp x) s = .next t ∧ t.pc = (if s.key[k] = true then s.pc + 4#12 else s.pc + 2#12) ∧
        Frame (fun _ => False) s t) ∧
      (∃ t, exec (.sknp x) s = .next t ∧ t.pc = (if s.key[k] = false then s.pc + 4#12 else s.pc + 2#12) ∧
        Frame (fun _ => False) s t)) ∧
    ((s.readV x).toNat > 0x0F →
      exec (.skp x) s = .fault (.keyIndexOutOfRange (s.readV x)) ∧
      exec (.sknp x) s = .fault (.keyIndexOutOfRange (s.readV x)))

/-! ## Display (spec/45_display.md) -/

/-- R105: CLS turns every pixel off, and VF stays. -/
def Obligations.ClsClearsEveryPixel : Prop :=
  decode 0x00E0#16 = .instr .cls ∧
  ∀ s : State, ∃ t, exec .cls s = .next t ∧ (∀ px py, px < 64 → py < 32 → t.disp.pixel px py = false) ∧
    t.pc = s.pc + 2#12 ∧ Frame (fun p => p = .disp) s t

/-- R106, R107: DRW flips exactly the pixels of the grid on which the sprite at (Vx, Vy), not wrapped, has a set bit;
VF is 0x01 if a lit pixel went off, else 0x00; a sprite that starts off the screen or has no rows draws nothing;
nothing else is written. -/
def Obligations.DrwXorsTheClippedSprite : Prop :=
  ∀ (x y n : Nibble) (s : State), decode (wordXyn 0xD#4 x y n) = .instr (.drw x y n) ∧
    ∃ t, exec (.drw x y n) s = .next t ∧
      (∀ px py, px < 64 → py < 32 → t.disp.pixel px py =
        (s.disp.pixel px py ^^ spriteBit (s.readV x).toNat (s.readV y).toNat (spriteBytes s n) px py)) ∧
      ((∃ px py, px < 64 ∧ py < 32 ∧ s.disp.pixel px py = true ∧ t.disp.pixel px py = false) →
        t.readV vf = 0x01#8) ∧
      ((∀ px py, px < 64 → py < 32 → s.disp.pixel px py = true → t.disp.pixel px py = true) →
        t.readV vf = 0x00#8) ∧
      ((64 ≤ (s.readV x).toNat ∨ 32 ≤ (s.readV y).toNat ∨ n = 0x0#4) → t.disp = s.disp ∧ t.readV vf = 0x00#8) ∧
      t.pc = s.pc + 2#12 ∧ Frame (fun p => p = .disp ∨ p = .v vf) s t

/-- R106's example (the source's vector): drawing the same sprite twice at the same coordinates restores the display;
and where the first drawing lit a pixel, the second sets VF to 0x01. -/
def Obligations.DrawingTwiceRestoresTheDisplay : Prop :=
  ∀ (x y n : Nibble) (s t u : State), x ≠ vf → y ≠ vf → exec (.drw x y n) s = .next t →
    exec (.drw x y n) t = .next u → u.disp = s.disp ∧
      ((∃ px py, px < 64 ∧ py < 32 ∧ s.disp.pixel px py = false ∧ t.disp.pixel px py = true) → u.readV vf = 0x01#8)

/-! ## All instructions together -/

/-- R14: VF changes only by one of the six flag writers, which leave 0x00 or 0x01, or as an ordinary destination with
x = 0xF; it is 0x00 in the model's reset state (log entry 1). -/
def Obligations.VfIsWrittenOnlyAsFlagOrDestination : Prop :=
  State.reset.readV vf = 0x00#8 ∧
  ∀ (i : Instr) (s t : State), exec i s = .next t →
    (i.pattern ∈ [Pattern.addReg, .sub, .subn, .shr, .shl, .drw] → t.readV vf = 0x01#8 ∨ t.readV vf = 0x00#8) ∧
    (t.readV vf ≠ s.readV vf →
      i.pattern ∈ [Pattern.addReg, .sub, .subn, .shr, .shl, .drw] ∨
      (fieldX (encode i) = 0xF#4 ∧
        i.pattern ∈ [Pattern.ldByte, .addByte, .ldReg, .orReg, .andReg, .xorReg, .rnd, .ldVxDt, .ldVxK, .ldVxMem]))

/-- R15, R18, R21, R23, R35 and the model's count of draws (log entry 3): which instructions write I, the stack, the
timers, memory and the display. -/
def Obligations.OnlyTheNamedInstructionsWriteEachPart : Prop :=
  ∀ (i : Instr) (s t : State), exec i s = .next t →
    (t.i ≠ s.i → i.pattern ∈ [Pattern.ldI, .addI, .ldF]) ∧
    (t.stack ≠ s.stack → i.pattern ∈ [Pattern.call, .ret]) ∧
    (t.dt ≠ s.dt → i.pattern = .ldDtVx) ∧
    (t.st ≠ s.st → i.pattern = .ldStVx) ∧
    (t.mem ≠ s.mem → i.pattern ∈ [Pattern.ldB, .ldMemVx]) ∧
    (t.disp ≠ s.disp → i.pattern ∈ [Pattern.cls, .drw]) ∧
    (t.draws ≠ s.draws → i.pattern = .rnd)

/-- R69: no instruction writes the control state, and none reads it or ST; none but DRW reads the display. Two states
that differ only there execute alike: what they leave agrees in all that an instruction can read, in the display that
CLS or DRW leaves, and in the ST that LD ST, Vx leaves. -/
def Obligations.NoInstructionReadsOrWritesControlState : Prop :=
  (∀ (i : Instr) (s t : State), exec i s = .next t → SameControl s t) ∧
  (∀ (i : Instr) (s s' : State), SameReadable s s' → (i.pattern = .drw → s'.disp = s.disp) →
    (∀ t, exec i s = .next t →
      ∃ t', exec i s' = .next t' ∧ SameReadable t t' ∧
        (i.pattern = .drw ∨ i.pattern = .cls → t'.disp = t.disp) ∧ (i.pattern = .ldStVx → t'.st = t.st)) ∧
    (∀ f, exec i s = .fault f → exec i s' = .fault f))

/-- R108, R111 to R114: every instruction completes in every state, but for CALL on a full stack and the key skips on
a key number above 0x0F, which raise their one model fault; nothing is refused. -/
def Obligations.EveryInstructionCompletesOrRaisesItsFault : Prop :=
  ∀ (i : Instr) (s : State),
    (∃ t, exec i s = .next t) ∨
    (∃ nnn, i = .call nnn ∧ 16 ≤ s.stack.length ∧ exec i s = .fault (.stackOverflow s.pc)) ∨
    (∃ x, (i = .skp x ∨ i = .sknp x) ∧ (s.readV x).toNat > 0x0F ∧
      exec i s = .fault (.keyIndexOutOfRange (s.readV x)))

/-! ## The decode-execute step and the run loop (spec/40_decode_cycle.md, 60_exceptions.md, 70_reset_and_hazards.md) -/

/-- R64, R128: in an approximate batch, a step runs the instruction that the two bytes at `pc` decode to, and uses up
one of the batch's steps; a model fault is marked with none of the instruction's writes (R66, R110). What a step of
the machine is, and that a fault is marked first, are the model's choice (log entries 6 and 10). -/
def Obligations.StepRunsTheDecodedInstruction : Prop :=
  ∀ (s : State) (i : Instr) (left : Nat), Live s → NoMove s → s.phase = .batch (left + 1) →
    decodeBytes (Memory.read s.pc.toNat s.mem) (Memory.read (s.pc + 1#12).toNat s.mem) = .instr i →
    (∀ t, exec i (afterBoundary s) = .next t → step s = .next { t with phase := .batch left }) ∧
    (∀ f, exec i (afterBoundary s) = .fault f →
      step s = .next { afterBoundary s with phase := .batch left, fault := some f })

/-- R129: a turn of the cycle-accurate batch. An instruction whose duration does not fit waits, and the frame ends;
one that fits is executed and charged; a stall ends the batch; a fault is marked. One turn is one step: log entries 6,
10 and 16. -/
def Obligations.AccurateBatchRunsWhatFitsTheBudget : Prop :=
  ∀ s : State, Live s → NoMove s → s.phase = .timed →
    (s.budget < durationOf (decode s.fetch) → step s = .next (afterBoundary s).finishFrame) ∧
    (durationOf (decode s.fetch) ≤ s.budget →
      (∀ t, execDecoded (decode s.fetch) (afterBoundary s) = .next t → stalls (decode s.fetch) s = false →
        step s = .next { t with budget := s.budget - durationOf (decode s.fetch) }) ∧
      (∀ t, execDecoded (decode s.fetch) (afterBoundary s) = .next t → stalls (decode s.fetch) s = true →
        step s = .next { t with budget := s.budget - durationOf (decode s.fetch), phase := .frameEnd }) ∧
      (∀ f, execDecoded (decode s.fetch) (afterBoundary s) = .fault f →
        step s = .next { afterBoundary s with
                         budget := s.budget - durationOf (decode s.fetch), fault := some f }))

/-- R10, R67, R129 and log entry 4: a duration depends on the pattern only, is positive, and fits a frame, so that no
program is stuck at an instruction that never fits. -/
def Obligations.DurationsAreByPatternAndFitAFrame : Prop :=
  (∀ i j : Instr, i.pattern = j.pattern → durationOf (.instr i) = durationOf (.instr j)) ∧
  (∀ i : Instr, 0 < durationOf (.instr i) ∧ durationOf (.instr i) ≤ frameUs) ∧
  (∀ w w' : Word, durationOf (.unmatched w) = durationOf (.unmatched w') ∧ 0 < durationOf (.unmatched w))

/-- R110, R30 and log entry 10: once a fault is marked, the block stops with it at its next event; no later step
clears or replaces it, whatever the host does, no move of the host does, and neither does a later fault. -/
def Obligations.AMarkedFaultStopsTheBlock : Prop :=
  ∀ (s : State) (f : Fault), s.fault = some f → (NoMove s → step s = .fault f) ∧
    (∀ t, step s = .next t → t.fault = some f) ∧ (∀ op, (s.hostOp op).fault = some f) ∧
    ∀ g, (s.raise g).fault = some f

/-- R116, R117, R127 to R129: a frame begins with the timers, each down by one and never below 0, and sets up the
batch of its mode: K = floor(clockHz / 60) steps, or the replenished and capped budget. That this is one step is log
entry 6. -/
def Obligations.FrameBeginsWithTimersAndBatch : Prop :=
  ∀ s : State, Live s → NoMove s → s.phase = .frameStart →
    ∃ t, step s = .next t ∧ t.dt.toNat = s.dt.toNat - 1 ∧ t.st.toNat = s.st.toNat - 1 ∧
      (s.accurate = false → t.phase = .batch (s.clockHz / 60) ∧ t.budget = s.budget) ∧
      (s.accurate = true → t.phase = .timed ∧ t.budget = min (s.budget + 16666666 / 1000) (16666666 / 1000)) ∧
      t = { afterBoundary s with dt := t.dt, st := t.st, phase := t.phase, budget := t.budget }

/-- R116, R118, R119, R129: a frame ends with the publication of the display and the sound evaluation: the sound is on
exactly while ST is above 0, and a change is reported. It ends so after the K steps of an approximate batch, after a
stall, and where the next instruction does not fit the budget of a cycle-accurate batch. That this is one step is log
entry 6, the list of calls log entry 8. -/
def Obligations.FrameEndsWithDisplayAndSound : Prop :=
  ∀ s : State, Live s → NoMove s →
    (s.phase = .batch 0 ∨ s.phase = .frameEnd ∨
      (s.phase = .timed ∧ s.budget < durationOf (decode s.fetch))) →
    ∃ t, step s = .next t ∧ t.phase = .frameStart ∧ t.audioOn = decide (s.st.toNat > 0) ∧
      (s.audioOn = t.audioOn → t.outputs = .displayUpdate s.disp :: s.outputs) ∧
      (s.audioOn ≠ t.audioOn →
        t.outputs = .audioStateChange t.audioOn :: .displayUpdate s.disp :: s.outputs) ∧
      t = { afterBoundary s with phase := t.phase, audioOn := t.audioOn, outputs := t.outputs }

/-- R116, R127, R128: with no move of the host, an approximate frame is over after its K steps and comes round to the
next frame, the display published; or, before that, a model fault was marked. It counts the model's steps (log entry
6). -/
def Obligations.ApproximateFrameTakesKSteps : Prop :=
  ∀ s : State, Live s → s.inputs = [] → s.phase = .frameStart → s.accurate = false →
    (∃ t : State, Host.Core.run Sys2Proof.core (s.clockHz / 60 + 2) s = .next t ∧ t.phase = .frameStart ∧ Live t ∧
      t.clockHz = s.clockHz ∧ Output.displayUpdate t.disp ∈ t.outputs ∧
      s.outputs.length < t.outputs.length ∧ t.outputs.length ≤ s.outputs.length + 2) ∨
    (∃ (j : Nat) (u : State) (f : Fault), j ≤ s.clockHz / 60 + 1 ∧
      Host.Core.run Sys2Proof.core j s = .next u ∧ u.fault = some f)

/-- R130: the durations executed in one frame sum to at most `FRAME_US`, and the sum is never negative. -/
def Obligations.FrameExecutesAtMostItsBudget : Prop :=
  ∀ (s : State) (k : Nat), Inv s → s.phase = .frameStart → 0 ≤ frameTime k s ∧ frameTime k s ≤ 16666666 / 1000

/-- R25, R26, R29, R131: by itself the block never changes the keys, the life-cycle state, the timing mode, the clock
rate or the loaded program; only the host does. -/
def Obligations.OnlyTheHostChangesKeysModeAndProgram : Prop :=
  ∀ s t : State, NoMove s → step s = .next t →
    t.key = s.key ∧ t.run = s.run ∧ t.accurate = s.accurate ∧ t.clockHz = s.clockHz ∧ t.rom = s.rom

/-- R123, R127 and log entry 11: in `Unloaded` and `Paused` nothing happens, the timers included. -/
def Obligations.NothingHappensWhileNotRunning : Prop :=
  ∀ s : State, s.fault = none → s.run ≠ .running → NoMove s → step s = .next (afterBoundary s)

/-- R141: a halt idiom, a jump to its own address, keeps everything but DT, ST, the sound state, the outputs and the
run loop's own bookkeeping, which is the phase and the budget (log entry 6), for ever; the block never stops by itself
there. -/
def Obligations.HaltIdiomKeepsTheState : Prop :=
  ∀ (s : State) (k : Nat), Live s → s.inputs = [] → s.fetch = wordNnn 0x1#4 s.pc →
    ∃ t : State, Host.Core.run Sys2Proof.core k s = .next t ∧
      t = { s with dt := t.dt, st := t.st, audioOn := t.audioOn, outputs := t.outputs, phase := t.phase,
                   budget := t.budget }

/-! ## Reset, load and the host's moves (spec/70_reset_and_hazards.md) -/

/-- R131, R132 and log entry 7: a move of the host takes effect between two steps, and is then all that happens. -/
def Obligations.HostMoveTakesEffectBetweenSteps : Prop :=
  ∀ (s : State) (op : HostOp) (rest : List (Option HostOp)), s.inputs = some op :: rest →
    step s = .next ((s.setInputs rest).hostOp op)

/-- R32, R43, R124: what the host's `reset()` leaves, and what it keeps. -/
def Obligations.HostResetLeavesTheResetState : Prop :=
  ∀ s : State, s.rom.length ≤ 3584 →
    (∀ x, (s.hostOp .reset).readV x = 0x00#8) ∧ (s.hostOp .reset).i = 0x000#12 ∧ (s.hostOp .reset).pc = 0x200#12 ∧
    (s.hostOp .reset).stack = [] ∧ (s.hostOp .reset).dt = 0x00#8 ∧ (s.hostOp .reset).st = 0x00#8 ∧
    (∀ j (h : j < s.rom.length), Memory.read (0x200 + j) (s.hostOp .reset).mem = s.rom[j]) ∧
    (∀ a, a < 80 → font[a]? = some (Memory.read a (s.hostOp .reset).mem)) ∧
    (∀ a, 80 ≤ a → a < 4096 → ¬ (0x200 ≤ a ∧ a < 0x200 + s.rom.length) →
      Memory.read a (s.hostOp .reset).mem = 0x00#8) ∧
    (∀ px py, px < 64 → py < 32 → (s.hostOp .reset).disp.pixel px py = false) ∧
    (∀ k : Fin 16, (s.hostOp .reset).key[k] = false) ∧ (s.hostOp .reset).run = .paused ∧ (s.hostOp .reset).budget = 0 ∧
    (s.hostOp .reset).audioOn = false ∧
    (s.hostOp .reset).outputs = (if s.audioOn = true then .audioStateChange false :: s.outputs else s.outputs) ∧
    (s.hostOp .reset).accurate = s.accurate ∧ (s.hostOp .reset).clockHz = s.clockHz ∧ (s.hostOp .reset).rom = s.rom ∧
    (s.hostOp .reset).fault = s.fault

/-- R125, R126 and log entry 1: `State.reset` is the block right after construction and a load of a program of no
bytes, and that is where `reset()` brings it again. -/
def Obligations.ResetIsConstructionAndAnEmptyLoad : Prop :=
  State.constructed.hostOp (.load []) = State.reset ∧ State.reset.hostOp .reset = State.reset

/-- R125: the host's `load` of up to 3584 bytes stores them at 0x200 and resets; a longer program is refused. -/
def Obligations.LoadStoresTheProgramOrIsRefused : Prop :=
  ∀ (s : State) (rom : List Byte),
    (rom.length ≤ 3584 → (s.hostOp (.load rom)).rom = rom ∧ (s.hostOp (.load rom)).run = .paused ∧
      (s.hostOp (.load rom)).pc = 0x200#12 ∧
      (∀ j (h : j < rom.length), Memory.read (0x200 + j) (s.hostOp (.load rom)).mem = rom[j]) ∧
      s.hostOp (.load rom) = ({ s with rom := rom } : State).hostOp .reset) ∧
    (3584 < rom.length → s.hostOp (.load rom) = s)

/-- R132, R133, R134: `pause` and `stop` change `run` only where the rule says, and abandon the rest of the frame: its
publication and its sound evaluation are not performed (the phase is the model's, log entry 12). -/
def Obligations.PauseAndStopMoveTheLifeCycle : Prop :=
  ∀ s : State,
    (s.run = .running → s.hostOp (.pause true) = { s with run := .paused, phase := .frameStart }) ∧
    (s.run = .paused → s.hostOp (.pause false) = { s with run := .running, phase := .frameStart }) ∧
    (s.run ≠ .running → s.hostOp (.pause true) = s) ∧
    (s.run ≠ .paused → s.hostOp (.pause false) = s) ∧
    s.hostOp .stop = s.hostOp (.pause true)

/-- R135, R136, R137: the timing mode with its reset, the clock rate, the keys; what is refused changes nothing. -/
def Obligations.SettingsAndKeysOfTheHost : Prop :=
  ∀ s : State,
    (∀ b, s.run = .unloaded → s.hostOp (.setTimingMode b) = { s with accurate := b }) ∧
    (∀ b, s.run ≠ .unloaded → s.hostOp (.setTimingMode b) = ({ s with accurate := b } : State).hostOp .reset) ∧
    (∀ hz : Int, 0 < hz → ((s.hostOp (.setClockRate hz)).clockHz : Int) = hz ∧
      s.hostOp (.setClockRate hz) = { s with clockHz := (s.hostOp (.setClockRate hz)).clockHz }) ∧
    (∀ hz : Int, hz ≤ 0 → s.hostOp (.setClockRate hz) = s) ∧
    (∀ (k j : Fin 16) (b : Bool), (s.hostOp (.setKey k.val b)).key[j] = (if j = k then b else s.key[j]) ∧
      s.hostOp (.setKey k.val b) = { s with key := (s.hostOp (.setKey k.val b)).key }) ∧
    (∀ (index : Int) (b : Bool), (index < 0 ∨ 15 < index) → s.hostOp (.setKey index b) = s) ∧
    (∀ keys, s.hostOp (.pollKeys keys) = { s with key := keys })

/-- R126 and log entry 2: the boot. From the constructed block, the host's moves of `bootInputs` bring a program to
run at 0x200, with the program in memory, the block `Running` and its first frame to come. -/
def Obligations.BootBringsAProgramToRun : Prop :=
  ∀ (hz : Int) (rom : List Byte) (rest : List (Option HostOp)), 0 < hz → rom.length ≤ 3584 →
    ∃ t : State, Host.Core.run Sys2Proof.core 4 { State.constructed with inputs := bootInputs hz rom ++ rest } = .next t ∧
      t.run = .running ∧ t.fault = none ∧ t.phase = .frameStart ∧ t.accurate = false ∧ (t.clockHz : Int) = hz ∧
      t.pc = 0x200#12 ∧ t.stack = [] ∧ t.inputs = rest ∧
      (∀ j (h : j < rom.length), Memory.read (0x200 + j) t.mem = rom[j])

/-- Log entry 2: the host's `withFetchWord` does what it is for: the very next step runs that word's instruction. -/
def Obligations.WithFetchWordRunsTheWord : Prop :=
  ∀ (s : State) (w : Nat) (i : Instr), decodeTableWord 16 w = some i → s.mem.wf = true →
    (∀ t, exec i (afterBoundary (s.withFetchWord 16 w)) = .next t →
      step (s.withFetchWord 16 w) = .next { t with phase := .batch 0 }) ∧
    (s.withFetchWord 16 w).v = s.v ∧ (s.withFetchWord 16 w).pc = s.pc ∧
    (s.withFetchWord 16 w).fetch.toNat = w % 65536

/-! ## The invariant -/

/-- R18, R22, R26, R27, R29, R130, R132: the invariant is kept by every step, from every state that has it, whatever
the host does. -/
def Obligations.StepKeepsTheInvariant : Prop :=
  ∀ s t : State, Inv s → step s = .next t → Inv t

/-- The invariant holds after construction and after reset. -/
def Obligations.ResetHasTheInvariant : Prop := Inv State.reset ∧ Inv State.constructed
end

