-- ==== Sys2Proof/Laws/Decode.lean ====
section
/-! SUPPORT. The fields of a word laid out in one of the formats of spec/30_encoding.md R49 (R50), and the layout of a
word's fields back into the word. -/

namespace Sys2Proof

/-! ## Fields of a laid-out word -/

@[simp] theorem fieldOp_wordNnn (op : Nibble) (nnn : Addr) : fieldOp (wordNnn op nnn) = op := by
  unfold fieldOp wordNnn; rw [BitVec.extractLsb'_append_eq_of_le (by omega)]; simp

@[simp] theorem fieldNnn_wordNnn (op : Nibble) (nnn : Addr) : fieldNnn (wordNnn op nnn) = nnn := by
  unfold fieldNnn wordNnn; rw [BitVec.extractLsb'_append_eq_of_add_le (by omega)]; simp

@[simp] theorem fieldOp_wordXkk (op x : Nibble) (kk : Byte) : fieldOp (wordXkk op x kk) = op := by
  unfold fieldOp wordXkk
  rw [BitVec.extractLsb'_append_eq_of_le (by omega), BitVec.extractLsb'_append_eq_of_le (by omega)]; simp

@[simp] theorem fieldX_wordXkk (op x : Nibble) (kk : Byte) : fieldX (wordXkk op x kk) = x := by
  unfold fieldX wordXkk
  rw [BitVec.extractLsb'_append_eq_of_le (by omega), BitVec.extractLsb'_append_eq_of_add_le (by omega)]; simp

@[simp] theorem fieldKk_wordXkk (op x : Nibble) (kk : Byte) : fieldKk (wordXkk op x kk) = kk := by
  unfold fieldKk wordXkk; rw [BitVec.extractLsb'_append_eq_of_add_le (by omega)]; simp

@[simp] theorem fieldOp_wordXyn (op x y n : Nibble) : fieldOp (wordXyn op x y n) = op := by
  unfold fieldOp wordXyn
  rw [BitVec.extractLsb'_append_eq_of_le (by omega), BitVec.extractLsb'_append_eq_of_le (by omega),
    BitVec.extractLsb'_append_eq_of_le (by omega)]; simp

@[simp] theorem fieldX_wordXyn (op x y n : Nibble) : fieldX (wordXyn op x y n) = x := by
  unfold fieldX wordXyn
  rw [BitVec.extractLsb'_append_eq_of_le (by omega), BitVec.extractLsb'_append_eq_of_le (by omega),
    BitVec.extractLsb'_append_eq_of_add_le (by omega)]; simp

@[simp] theorem fieldY_wordXyn (op x y n : Nibble) : fieldY (wordXyn op x y n) = y := by
  unfold fieldY wordXyn
  rw [BitVec.extractLsb'_append_eq_of_le (by omega), BitVec.extractLsb'_append_eq_of_add_le (by omega)]; simp

@[simp] theorem fieldN_wordXyn (op x y n : Nibble) : fieldN (wordXyn op x y n) = n := by
  unfold fieldN wordXyn; rw [BitVec.extractLsb'_append_eq_of_add_le (by omega)]; simp

/-! ## A word as a number, and a word is its fields -/

theorem toNat_append_eq {m n : Nat} (a : BitVec m) (b : BitVec n) : (a ++ b).toNat = a.toNat * 2 ^ n + b.toNat := by
  rw [BitVec.toNat_append, ← Nat.shiftLeft_add_eq_or_of_lt b.isLt, Nat.shiftLeft_eq]

theorem wordNnn_toNat (op : Nibble) (nnn : Addr) : (wordNnn op nnn).toNat = op.toNat * 4096 + nnn.toNat :=
  toNat_append_eq op nnn

theorem wordXkk_toNat (op x : Nibble) (kk : Byte) :
    (wordXkk op x kk).toNat = op.toNat * 4096 + x.toNat * 256 + kk.toNat := by
  have h := toNat_append_eq (op ++ x) kk
  rw [toNat_append_eq op x] at h
  exact h.trans (by omega)

theorem wordXyn_toNat (op x y n : Nibble) :
    (wordXyn op x y n).toNat = op.toNat * 4096 + x.toNat * 256 + y.toNat * 16 + n.toNat := by
  have h := toNat_append_eq (op ++ x ++ y) n
  rw [toNat_append_eq (op ++ x) y, toNat_append_eq op x] at h
  exact h.trans (by omega)

theorem fieldOp_toNat (w : Word) : (fieldOp w).toNat = w.toNat / 4096 % 16 := by
  simp [fieldOp, BitVec.extractLsb'_toNat, Nat.shiftRight_eq_div_pow]

theorem fieldNnn_toNat (w : Word) : (fieldNnn w).toNat = w.toNat % 4096 := by
  simp [fieldNnn, BitVec.extractLsb'_toNat]

theorem fieldX_toNat (w : Word) : (fieldX w).toNat = w.toNat / 256 % 16 := by
  simp [fieldX, BitVec.extractLsb'_toNat, Nat.shiftRight_eq_div_pow]

theorem fieldY_toNat (w : Word) : (fieldY w).toNat = w.toNat / 16 % 16 := by
  simp [fieldY, BitVec.extractLsb'_toNat, Nat.shiftRight_eq_div_pow]

theorem fieldKk_toNat (w : Word) : (fieldKk w).toNat = w.toNat % 256 := by
  simp [fieldKk, BitVec.extractLsb'_toNat]

theorem fieldN_toNat (w : Word) : (fieldN w).toNat = w.toNat % 16 := by
  simp [fieldN, BitVec.extractLsb'_toNat]

theorem wordNnn_fields (w : Word) : wordNnn (fieldOp w) (fieldNnn w) = w := by
  apply BitVec.eq_of_toNat_eq
  rw [wordNnn_toNat, fieldOp_toNat, fieldNnn_toNat]
  omega

theorem wordXkk_fields (w : Word) : wordXkk (fieldOp w) (fieldX w) (fieldKk w) = w := by
  apply BitVec.eq_of_toNat_eq
  rw [wordXkk_toNat, fieldOp_toNat, fieldX_toNat, fieldKk_toNat]
  omega

theorem wordXyn_fields (w : Word) : wordXyn (fieldOp w) (fieldX w) (fieldY w) (fieldN w) = w := by
  apply BitVec.eq_of_toNat_eq
  rw [wordXyn_toNat, fieldOp_toNat, fieldX_toNat, fieldY_toNat, fieldN_toNat]
  omega

/-- The two bytes of a stored word, in order, are the word again (R37). -/
@[simp] theorem bytes_append (w : Word) : (firstByte w ++ secondByte w : Word) = w := by
  apply BitVec.eq_of_toNat_eq
  have h := toNat_append_eq (firstByte w) (secondByte w)
  refine h.trans ?_
  simp only [firstByte, secondByte, BitVec.extractLsb'_toNat, Nat.shiftRight_eq_div_pow]
  omega

end Sys2Proof
end

