-- ==== Sys2Proof/Laws/Graphics.lean ====
section
/-! SUPPORT. The display pixel by pixel, and one lemma for each drawing loop of spec/45_display.md R106. -/

namespace Sys2Proof.Machine

/-! ## Pixels -/

theorem Display.pixel_of_lt (d : Display) {px py : Nat} (hx : px < 64) (hy : py < 32) : d.pixel px py = d[py][px] := by
  simp [Display.pixel, hx, hy]

theorem Display.pixel_outside (d : Display) {px py : Nat} (h : ¬ (px < 64 ∧ py < 32)) : d.pixel px py = false := by
  unfold Display.pixel
  by_cases hy : py < 32
  · have hx : ¬ px < 64 := fun hx => h ⟨hx, hy⟩
    simp [hy, hx]
  · simp [hy]

/-- Two displays with the same pixels are the same. -/
theorem Display.ext_pixel {d e : Display} (h : ∀ px py, d.pixel px py = e.pixel px py) : d = e := by
  refine Vector.ext fun py hy => Vector.ext fun px hx => ?_
  simpa [Display.pixel_of_lt _ hx hy] using h px py

@[simp] theorem Display.pixel_clear (px py : Nat) : Display.clear.pixel px py = false := by
  by_cases h : px < 64 ∧ py < 32
  · rw [Display.pixel_of_lt _ h.1 h.2]; simp [Display.clear]
  · exact Display.pixel_outside _ h

/-- Toggling a pixel of the grid flips it and no other. -/
theorem Display.pixel_toggle (d : Display) {px py : Nat} (hx : px < 64) (hy : py < 32) (qx qy : Nat) :
    (d.toggle px py).pixel qx qy = (d.pixel qx qy ^^ (decide (qx = px) && decide (qy = py))) := by
  by_cases hq : qx < 64 ∧ qy < 32
  · obtain ⟨hqx, hqy⟩ := hq
    rw [Display.pixel_of_lt _ hqx hqy, Display.pixel_of_lt _ hqx hqy]
    by_cases h1 : qy = py
    · subst h1
      by_cases h2 : qx = px
      · subst h2; simp [Display.toggle, hqx, hqy]
      · simp [Display.toggle, hqy, hx, h2, Ne.symm h2]
    · simp [Display.toggle, hy, h1, Ne.symm h1]
  · rw [Display.pixel_outside _ hq, Display.pixel_outside _ hq]
    have : ¬ (qx = px ∧ qy = py) := fun h => hq ⟨h.1 ▸ hx, h.2 ▸ hy⟩
    simpa using this

/-! ## The drawing loops (R106) -/

theorem drawPixel_pixel (px py : Nat) (dh : Display × Bool) (qx qy : Nat) (hqx : qx < 64) (hqy : qy < 32) :
    (drawPixel px py dh).1.pixel qx qy = (dh.1.pixel qx qy ^^ (decide (qx = px) && decide (qy = py))) := by
  unfold drawPixel
  split
  · next h => exact Display.pixel_toggle dh.1 h.1 h.2 qx qy
  · next h =>
    have : ¬ (qx = px ∧ qy = py) := fun hq => h ⟨hq.1 ▸ hqx, hq.2 ▸ hqy⟩
    rw [show (decide (qx = px) && decide (qy = py)) = false by simpa using this, Bool.xor_false]

theorem drawPixel_hit (px py : Nat) (dh : Display × Bool) :
    (drawPixel px py dh).2 = (dh.2 || dh.1.pixel px py) := by
  unfold drawPixel
  split
  · rfl
  · next h => simp [Display.pixel_outside _ h]

/-- Part of a row: each set bit flips its pixel. -/
theorem drawRowFrom_pixel (x0 py : Nat) (b : Byte) (left c : Nat) (dh : Display × Bool) (qx qy : Nat)
    (hqx : qx < 64) (hqy : qy < 32) :
    (drawRowFrom x0 py b c left dh).1.pixel qx qy =
      (dh.1.pixel qx qy ^^ (decide (x0 + c ≤ qx) && decide (qx < x0 + c + left) && decide (qy = py) &&
        b.getLsbD (7 - (qx - x0)))) := by
  induction left generalizing c dh with
  | zero =>
    have : ¬ (x0 + c ≤ qx ∧ qx < x0 + c) := by omega
    rcases Decidable.not_and_iff_or_not.mp this with h | h <;> simp [drawRowFrom, h]
  | succ left ih =>
    rw [drawRowFrom, ih]
    rcases Nat.lt_trichotomy qx (x0 + c) with h | h | h
    · have h1 : ¬ x0 + (c + 1) ≤ qx := by omega
      have h2 : ¬ x0 + c ≤ qx := by omega
      split
      · rw [drawPixel_pixel _ _ _ _ _ hqx hqy]; simp [h1, h2, show ¬ qx = x0 + c by omega]
      · simp [h1, h2]
    · have h1 : ¬ x0 + (c + 1) ≤ qx := by omega
      have h2 : 7 - (qx - x0) = 7 - c := by omega
      split
      · next hb => rw [drawPixel_pixel _ _ _ _ _ hqx hqy]; simp [hb, h]
      · next hb => simp [h1, h2, hb]
    · have h1 : decide (x0 + (c + 1) ≤ qx) = decide (x0 + c ≤ qx) := by simp; omega
      have h2 : decide (qx < x0 + (c + 1) + left) = decide (qx < x0 + c + (left + 1)) := by simp; omega
      rw [h1, h2]
      split
      · rw [drawPixel_pixel _ _ _ _ _ hqx hqy]; simp [show ¬ qx = x0 + c by omega]
      · rfl

/-- Part of a row: a hit is a set bit on a pixel that was lit. -/
theorem drawRowFrom_hit (x0 py : Nat) (b : Byte) (left c : Nat) (dh : Display × Bool) :
    (drawRowFrom x0 py b c left dh).2 = true ↔
      dh.2 = true ∨ ∃ qx, x0 + c ≤ qx ∧ qx < x0 + c + left ∧ b.getLsbD (7 - (qx - x0)) = true ∧
        dh.1.pixel qx py = true := by
  induction left generalizing c dh with
  | zero => simp only [drawRowFrom]; exact ⟨Or.inl, fun h => h.elim id fun ⟨q, h1, h2, _⟩ => by omega⟩
  | succ left ih =>
    rw [drawRowFrom, ih]
    have hbit : 7 - (x0 + c - x0) = 7 - c := by omega
    constructor
    · rintro (h | ⟨q, h1, h2, h3, h4⟩)
      · split at h
        · next hb =>
          rw [drawPixel_hit, Bool.or_eq_true] at h
          exact h.imp id fun h => ⟨x0 + c, le_refl _, by omega, by rw [hbit]; exact hb, h⟩
        · exact .inl h
      · refine .inr ⟨q, by omega, by omega, h3, ?_⟩
        split at h4
        · by_cases hq : q < 64 ∧ py < 32
          · rw [drawPixel_pixel _ _ _ _ _ hq.1 hq.2] at h4
            simpa [show ¬ q = x0 + c by omega] using h4
          · rw [Display.pixel_outside _ hq] at h4; cases h4
        · exact h4
    · rintro (h | ⟨q, h1, h2, h3, h4⟩)
      · left; split
        · rw [drawPixel_hit, h]; rfl
        · exact h
      · by_cases hq : q = x0 + c
        · subst hq
          rw [hbit] at h3
          left; rw [if_pos h3, drawPixel_hit, h4]; simp
        · refine .inr ⟨q, by omega, by omega, h3, ?_⟩
          split
          · by_cases hg : q < 64 ∧ py < 32
            · rw [drawPixel_pixel _ _ _ _ _ hg.1 hg.2, h4]; simp [hq]
            · rw [Display.pixel_outside _ hg] at h4; cases h4
          · exact h4

/-- A whole sprite: each set bit flips its pixel, and nothing else changes. -/
theorem drawRows_pixel (x0 : Nat) (bytes : List Byte) (y0 : Nat) (dh : Display × Bool) (qx qy : Nat)
    (hqx : qx < 64) (hqy : qy < 32) :
    (drawRows x0 y0 bytes dh).1.pixel qx qy = (dh.1.pixel qx qy ^^ spriteBit x0 y0 bytes qx qy) := by
  induction bytes generalizing y0 dh with
  | nil =>
    have : ¬ (y0 ≤ qy ∧ qy < y0) := by omega
    rcases Decidable.not_and_iff_or_not.mp this with h | h <;> simp [drawRows, spriteBit, h]
  | cons b bs ih =>
    rw [drawRows, ih, drawRow, drawRowFrom_pixel _ _ _ _ _ _ _ _ hqx hqy]
    unfold spriteBit
    rcases Nat.lt_trichotomy qy y0 with h | h | h
    · simp [show ¬ y0 + 1 ≤ qy by omega, show ¬ y0 ≤ qy by omega, show ¬ qy = y0 by omega]
    · subst h; simp
    · obtain ⟨j, rfl⟩ : ∃ j, qy = y0 + 1 + j := ⟨qy - (y0 + 1), by omega⟩
      simp [show y0 + 1 + j - (y0 + 1) = j by omega, show y0 + 1 + j - y0 = j + 1 by omega,
        show ¬ y0 + 1 + j = y0 by omega, show y0 ≤ y0 + 1 + j by omega,
        show (y0 + 1 + j < y0 + 1 + bs.length) = (y0 + 1 + j < y0 + (bs.length + 1)) by rw [eq_iff_iff]; omega]

/-- A whole sprite: a hit is a set bit on a pixel that was lit. -/
theorem drawRows_hit (x0 : Nat) (bytes : List Byte) (y0 : Nat) (dh : Display × Bool) :
    (drawRows x0 y0 bytes dh).2 = true ↔
      dh.2 = true ∨ ∃ qx qy, qx < 64 ∧ qy < 32 ∧ spriteBit x0 y0 bytes qx qy = true ∧ dh.1.pixel qx qy = true := by
  induction bytes generalizing y0 dh with
  | nil =>
    refine ⟨Or.inl, fun h => h.elim id ?_⟩
    rintro ⟨qx, qy, -, -, h, -⟩
    simp only [spriteBit, Bool.and_eq_true, decide_eq_true_eq, List.length_nil] at h
    omega
  | cons b bs ih =>
    have hgrid : ∀ (d : Display) (px py : Nat), d.pixel px py = true → px < 64 ∧ py < 32 := fun d px py hp => by
      by_contra hg; rw [Display.pixel_outside d hg] at hp; cases hp
    have hsplit : ∀ qx qy, spriteBit x0 y0 (b :: bs) qx qy = true ↔
        (qy = y0 ∧ x0 + 0 ≤ qx ∧ qx < x0 + 0 + 8 ∧ b.getLsbD (7 - (qx - x0)) = true) ∨
          spriteBit x0 (y0 + 1) bs qx qy = true := by
      intro qx qy
      simp only [spriteBit, Bool.and_eq_true, decide_eq_true_eq, List.length_cons, Nat.add_zero]
      rcases Nat.lt_trichotomy qy y0 with h | h | h
      · constructor
        · intro hh; omega
        · rintro (hh | hh) <;> omega
      · subst h; simp [and_assoc]
      · obtain ⟨j, rfl⟩ : ∃ j, qy = y0 + 1 + j := ⟨qy - (y0 + 1), by omega⟩
        rw [show y0 + 1 + j - (y0 + 1) = j by omega, show y0 + 1 + j - y0 = j + 1 by omega, List.getD_cons_succ]
        constructor
        · rintro ⟨⟨⟨⟨h1, h2⟩, h3⟩, h4⟩, h5⟩
          exact .inr ⟨⟨⟨⟨h1, h2⟩, by omega⟩, by omega⟩, h5⟩
        · rintro (⟨h0, _⟩ | ⟨⟨⟨⟨h1, h2⟩, h3⟩, h4⟩, h5⟩)
          · omega
          · exact ⟨⟨⟨⟨h1, h2⟩, by omega⟩, by omega⟩, h5⟩
    rw [drawRows, ih, drawRow, drawRowFrom_hit]
    constructor
    · rintro ((h | ⟨q, h1, h2, h3, h4⟩) | ⟨qx, qy, hx, hy, h1, h2⟩)
      · exact .inl h
      · obtain ⟨hx, hy⟩ := hgrid _ _ _ h4
        exact .inr ⟨q, y0, hx, hy, (hsplit q y0).mpr (.inl ⟨rfl, h1, h2, h3⟩), h4⟩
      · have hne : ¬ qy = y0 := by
          rintro rfl
          simp only [spriteBit, Bool.and_eq_true, decide_eq_true_eq] at h1
          omega
        rw [drawRowFrom_pixel _ _ _ _ _ _ _ _ hx hy] at h2
        exact .inr ⟨qx, qy, hx, hy, (hsplit qx qy).mpr (.inr h1), by simpa [hne] using h2⟩
    · rintro (h | ⟨qx, qy, hx, hy, h1, h2⟩)
      · exact .inl (.inl h)
      · rcases (hsplit qx qy).mp h1 with ⟨rfl, h3, h4, h5⟩ | h3
        · exact .inl (.inr ⟨qx, h3, h4, h5, h2⟩)
        · have hne : ¬ qy = y0 := by
            rintro rfl
            simp only [spriteBit, Bool.and_eq_true, decide_eq_true_eq] at h3
            omega
          refine .inr ⟨qx, qy, hx, hy, h3, ?_⟩
          rw [drawRowFrom_pixel _ _ _ _ _ _ _ _ hx hy, h2]
          simp [hne]

end Sys2Proof.Machine
end

