-- ==== Sys2Proof/Laws/Memory.lean ====
section
/-! SUPPORT. The laws of memory: reading after writing (spec/20_memory.md R40, R44), and that every operation keeps the
canonical form, in which equal contents are equal lists. -/

namespace Sys2Proof.Machine

/-! ## Reading after writing -/

theorem Memory.read_cons (a k : Nat) (b : Byte) (m : Memory) (h : a ≠ k) :
    Memory.read a (Memory.cons k b m) = Memory.read a m := by
  unfold Memory.cons
  split
  · rfl
  · simp [Memory.read, Ne.symm h]

/-- A canonical list has no cell below its lower bound. -/
theorem Memory.read_of_lt {lo a : Nat} {m : Memory} (h : Memory.wfFrom lo m = true) (ha : a < lo) :
    Memory.read a m = Memory.resetByte a := by
  induction m generalizing lo with
  | nil => rfl
  | cons c m ih =>
    obtain ⟨k, b⟩ := c
    simp only [Memory.wfFrom, Bool.and_eq_true, decide_eq_true_eq] at h
    obtain ⟨⟨⟨hk, -⟩, -⟩, hm⟩ := h
    rw [Memory.read, if_neg (by omega)]
    exact ih hm (by omega)

theorem Memory.read_cons_self {lo a : Nat} {b : Byte} {m : Memory} (h : Memory.wfFrom lo m = true) (ha : a < lo) :
    Memory.read a (Memory.cons a b m) = b := by
  unfold Memory.cons
  split
  · next hb => rw [hb]; exact Memory.read_of_lt h ha
  · simp [Memory.read]

theorem Memory.wfFrom_mono {lo lo' : Nat} {m : Memory} (h : Memory.wfFrom lo m = true) (hle : lo' ≤ lo) :
    Memory.wfFrom lo' m = true := by
  cases m with
  | nil => rfl
  | cons c m =>
    obtain ⟨k, b⟩ := c
    simp only [Memory.wfFrom, Bool.and_eq_true, decide_eq_true_eq] at h ⊢
    exact ⟨⟨⟨by omega, h.1.1.2⟩, h.1.2⟩, h.2⟩

/-- A write is read back. -/
theorem Memory.read_write_self {lo a : Nat} (b : Byte) {m : Memory} (h : Memory.wfFrom lo m = true) :
    Memory.read a (Memory.write a b m) = b := by
  induction m generalizing lo with
  | nil => exact Memory.read_cons_self (lo := a + 1) rfl (by omega)
  | cons c m ih =>
    obtain ⟨k, d⟩ := c
    have hm : Memory.wfFrom (k + 1) m = true := by
      simp only [Memory.wfFrom, Bool.and_eq_true] at h
      exact h.2
    simp only [Memory.write]
    split
    · next hlt =>
      have hk : Memory.wfFrom k ((k, d) :: m) = true := by
        simp only [Memory.wfFrom, Bool.and_eq_true, decide_eq_true_eq] at h ⊢
        exact ⟨⟨⟨le_refl k, h.1.1.2⟩, h.1.2⟩, h.2⟩
      exact Memory.read_cons_self hk hlt
    · split
      · next heq => exact Memory.read_cons_self (heq ▸ hm) (by omega)
      · next hne => rw [Memory.read, if_neg (by omega)]; exact ih hm

/-- A write leaves every other byte alone. -/
theorem Memory.read_write_of_ne {a k : Nat} (b : Byte) (m : Memory) (h : a ≠ k) :
    Memory.read a (Memory.write k b m) = Memory.read a m := by
  induction m with
  | nil => exact Memory.read_cons a k b [] h
  | cons c m ih =>
    obtain ⟨l, d⟩ := c
    simp only [Memory.write]
    split
    · exact Memory.read_cons a k b _ h
    · split
      · next heq =>
        subst heq
        rw [Memory.read_cons a k b m h, Memory.read, if_neg (Ne.symm h)]
      · simp only [Memory.read, ih]

/-- What one byte reads as after a write (R40). -/
theorem Memory.read_write {m : Memory} (h : m.wf = true) (a k : Nat) (b : Byte) :
    Memory.read a (Memory.write k b m) = if a = k then b else Memory.read a m := by
  split
  · next heq => subst heq; exact Memory.read_write_self b h
  · next hne => exact Memory.read_write_of_ne b m hne

/-! ## Every operation keeps the canonical form -/

theorem Memory.wf_nil : Memory.wf [] = true := rfl

theorem Memory.wfFrom_cons {lo a : Nat} {b : Byte} {m : Memory} (hlo : lo ≤ a) (ha : a < memSize)
    (h : Memory.wfFrom (a + 1) m = true) : Memory.wfFrom lo (Memory.cons a b m) = true := by
  unfold Memory.cons
  split
  · exact Memory.wfFrom_mono h (by omega)
  · next hb => simp [Memory.wfFrom, hlo, ha, hb, h]

theorem Memory.wfFrom_write {lo a : Nat} {b : Byte} {m : Memory} (hlo : lo ≤ a) (ha : a < memSize)
    (h : Memory.wfFrom lo m = true) : Memory.wfFrom lo (Memory.write a b m) = true := by
  induction m generalizing lo with
  | nil => exact Memory.wfFrom_cons hlo ha rfl
  | cons c m ih =>
    obtain ⟨k, d⟩ := c
    simp only [Memory.wfFrom, Bool.and_eq_true, decide_eq_true_eq] at h
    obtain ⟨⟨⟨hk, hk'⟩, hd⟩, hm⟩ := h
    simp only [Memory.write]
    split
    · next hlt =>
      refine Memory.wfFrom_cons hlo ha ?_
      simp only [Memory.wfFrom, Bool.and_eq_true, decide_eq_true_eq]
      exact ⟨⟨⟨by omega, hk'⟩, hd⟩, hm⟩
    · split
      · next heq => exact Memory.wfFrom_cons hlo ha (heq ▸ hm)
      · next hne =>
        simp only [Memory.wfFrom, Bool.and_eq_true, decide_eq_true_eq]
        exact ⟨⟨⟨hk, hk'⟩, hd⟩, ih (by omega) hm⟩

theorem Memory.wf_write {a : Nat} (b : Byte) {m : Memory} (ha : a < memSize) (h : m.wf = true) :
    (Memory.write a b m).wf = true :=
  Memory.wfFrom_write (Nat.zero_le a) ha h

theorem Memory.wf_writeList {m : Memory} (h : m.wf = true) (bs : List Byte) (a : Nat)
    (ha : a + bs.length ≤ memSize) : (Memory.writeList a bs m).wf = true := by
  induction bs generalizing a with
  | nil => exact h
  | cons b bs ih =>
    rw [List.length_cons] at ha
    exact Memory.wf_write b (by omega) (ih (a + 1) (by omega))

theorem Memory.wf_ofRom {rom : List Byte} (h : rom.length ≤ maxRom) : (Memory.ofRom rom).wf = true :=
  Memory.wf_writeList Memory.wf_nil rom programOrigin (by simp [maxRom, programOrigin, memSize] at *; omega)

/-! ## What a stored list of bytes reads as -/

/-- Consecutive bytes read back, every other address as before. -/
theorem Memory.read_writeList {m : Memory} (h : m.wf = true) (bs : List Byte) (a k : Nat)
    (ha : a + bs.length ≤ memSize) :
    Memory.read k (Memory.writeList a bs m) =
      if a ≤ k then (bs[k - a]?).getD (Memory.read k m) else Memory.read k m := by
  induction bs generalizing a with
  | nil => simp [Memory.writeList]
  | cons b bs ih =>
    rw [List.length_cons] at ha
    have hwf := Memory.wf_writeList h bs (a + 1) (by omega)
    rw [Memory.writeList, Memory.read_write hwf, ih (a + 1) (by omega)]
    rcases Nat.lt_trichotomy k a with hk | hk | hk
    · rw [if_neg (by omega), if_neg (by omega), if_neg (by omega)]
    · simp [hk]
    · rw [if_neg (by omega), if_pos (by omega), if_pos (by omega)]
      obtain ⟨j, rfl⟩ : ∃ j, k = a + 1 + j := ⟨k - (a + 1), by omega⟩
      simp [show a + 1 + j - a = j + 1 by omega]

end Sys2Proof.Machine
end

