-- ==== Sys2Proof/Laws/State.lean ====
section
/-! SUPPORT. The small lemmas of State: what each named update leaves in each field, and what reading a data register
gives after it, so that no later proof unfolds a record update. The compound updates are rewritten to these. -/

namespace Sys2Proof.Machine

variable (s : State)

/-! ## writeV -/

@[simp] theorem State.v_writeV (x : Nibble) (b : Byte) : (s.writeV x b).v = s.v.set x.toNat b x.isLt := rfl
@[simp] theorem State.i_writeV (x : Nibble) (b : Byte) : (s.writeV x b).i = s.i := rfl
@[simp] theorem State.pc_writeV (x : Nibble) (b : Byte) : (s.writeV x b).pc = s.pc := rfl
@[simp] theorem State.stack_writeV (x : Nibble) (b : Byte) : (s.writeV x b).stack = s.stack := rfl
@[simp] theorem State.dt_writeV (x : Nibble) (b : Byte) : (s.writeV x b).dt = s.dt := rfl
@[simp] theorem State.st_writeV (x : Nibble) (b : Byte) : (s.writeV x b).st = s.st := rfl
@[simp] theorem State.mem_writeV (x : Nibble) (b : Byte) : (s.writeV x b).mem = s.mem := rfl
@[simp] theorem State.disp_writeV (x : Nibble) (b : Byte) : (s.writeV x b).disp = s.disp := rfl
@[simp] theorem State.key_writeV (x : Nibble) (b : Byte) : (s.writeV x b).key = s.key := rfl
@[simp] theorem State.run_writeV (x : Nibble) (b : Byte) : (s.writeV x b).run = s.run := rfl
@[simp] theorem State.accurate_writeV (x : Nibble) (b : Byte) : (s.writeV x b).accurate = s.accurate := rfl
@[simp] theorem State.clockHz_writeV (x : Nibble) (b : Byte) : (s.writeV x b).clockHz = s.clockHz := rfl
@[simp] theorem State.budget_writeV (x : Nibble) (b : Byte) : (s.writeV x b).budget = s.budget := rfl
@[simp] theorem State.audioOn_writeV (x : Nibble) (b : Byte) : (s.writeV x b).audioOn = s.audioOn := rfl
@[simp] theorem State.rom_writeV (x : Nibble) (b : Byte) : (s.writeV x b).rom = s.rom := rfl
@[simp] theorem State.fault_writeV (x : Nibble) (b : Byte) : (s.writeV x b).fault = s.fault := rfl
@[simp] theorem State.phase_writeV (x : Nibble) (b : Byte) : (s.writeV x b).phase = s.phase := rfl
@[simp] theorem State.draws_writeV (x : Nibble) (b : Byte) : (s.writeV x b).draws = s.draws := rfl
@[simp] theorem State.inputs_writeV (x : Nibble) (b : Byte) : (s.writeV x b).inputs = s.inputs := rfl
@[simp] theorem State.outputs_writeV (x : Nibble) (b : Byte) : (s.writeV x b).outputs = s.outputs := rfl

/-! ## setI -/

@[simp] theorem State.v_setI (a : Addr) : (s.setI a).v = s.v := rfl
@[simp] theorem State.i_setI (a : Addr) : (s.setI a).i = a := rfl
@[simp] theorem State.pc_setI (a : Addr) : (s.setI a).pc = s.pc := rfl
@[simp] theorem State.stack_setI (a : Addr) : (s.setI a).stack = s.stack := rfl
@[simp] theorem State.dt_setI (a : Addr) : (s.setI a).dt = s.dt := rfl
@[simp] theorem State.st_setI (a : Addr) : (s.setI a).st = s.st := rfl
@[simp] theorem State.mem_setI (a : Addr) : (s.setI a).mem = s.mem := rfl
@[simp] theorem State.disp_setI (a : Addr) : (s.setI a).disp = s.disp := rfl
@[simp] theorem State.key_setI (a : Addr) : (s.setI a).key = s.key := rfl
@[simp] theorem State.run_setI (a : Addr) : (s.setI a).run = s.run := rfl
@[simp] theorem State.accurate_setI (a : Addr) : (s.setI a).accurate = s.accurate := rfl
@[simp] theorem State.clockHz_setI (a : Addr) : (s.setI a).clockHz = s.clockHz := rfl
@[simp] theorem State.budget_setI (a : Addr) : (s.setI a).budget = s.budget := rfl
@[simp] theorem State.audioOn_setI (a : Addr) : (s.setI a).audioOn = s.audioOn := rfl
@[simp] theorem State.rom_setI (a : Addr) : (s.setI a).rom = s.rom := rfl
@[simp] theorem State.fault_setI (a : Addr) : (s.setI a).fault = s.fault := rfl
@[simp] theorem State.phase_setI (a : Addr) : (s.setI a).phase = s.phase := rfl
@[simp] theorem State.draws_setI (a : Addr) : (s.setI a).draws = s.draws := rfl
@[simp] theorem State.inputs_setI (a : Addr) : (s.setI a).inputs = s.inputs := rfl
@[simp] theorem State.outputs_setI (a : Addr) : (s.setI a).outputs = s.outputs := rfl

/-! ## setDt -/

@[simp] theorem State.v_setDt (b : Byte) : (s.setDt b).v = s.v := rfl
@[simp] theorem State.i_setDt (b : Byte) : (s.setDt b).i = s.i := rfl
@[simp] theorem State.pc_setDt (b : Byte) : (s.setDt b).pc = s.pc := rfl
@[simp] theorem State.stack_setDt (b : Byte) : (s.setDt b).stack = s.stack := rfl
@[simp] theorem State.dt_setDt (b : Byte) : (s.setDt b).dt = b := rfl
@[simp] theorem State.st_setDt (b : Byte) : (s.setDt b).st = s.st := rfl
@[simp] theorem State.mem_setDt (b : Byte) : (s.setDt b).mem = s.mem := rfl
@[simp] theorem State.disp_setDt (b : Byte) : (s.setDt b).disp = s.disp := rfl
@[simp] theorem State.key_setDt (b : Byte) : (s.setDt b).key = s.key := rfl
@[simp] theorem State.run_setDt (b : Byte) : (s.setDt b).run = s.run := rfl
@[simp] theorem State.accurate_setDt (b : Byte) : (s.setDt b).accurate = s.accurate := rfl
@[simp] theorem State.clockHz_setDt (b : Byte) : (s.setDt b).clockHz = s.clockHz := rfl
@[simp] theorem State.budget_setDt (b : Byte) : (s.setDt b).budget = s.budget := rfl
@[simp] theorem State.audioOn_setDt (b : Byte) : (s.setDt b).audioOn = s.audioOn := rfl
@[simp] theorem State.rom_setDt (b : Byte) : (s.setDt b).rom = s.rom := rfl
@[simp] theorem State.fault_setDt (b : Byte) : (s.setDt b).fault = s.fault := rfl
@[simp] theorem State.phase_setDt (b : Byte) : (s.setDt b).phase = s.phase := rfl
@[simp] theorem State.draws_setDt (b : Byte) : (s.setDt b).draws = s.draws := rfl
@[simp] theorem State.inputs_setDt (b : Byte) : (s.setDt b).inputs = s.inputs := rfl
@[simp] theorem State.outputs_setDt (b : Byte) : (s.setDt b).outputs = s.outputs := rfl

/-! ## setSt -/

@[simp] theorem State.v_setSt (b : Byte) : (s.setSt b).v = s.v := rfl
@[simp] theorem State.i_setSt (b : Byte) : (s.setSt b).i = s.i := rfl
@[simp] theorem State.pc_setSt (b : Byte) : (s.setSt b).pc = s.pc := rfl
@[simp] theorem State.stack_setSt (b : Byte) : (s.setSt b).stack = s.stack := rfl
@[simp] theorem State.dt_setSt (b : Byte) : (s.setSt b).dt = s.dt := rfl
@[simp] theorem State.st_setSt (b : Byte) : (s.setSt b).st = b := rfl
@[simp] theorem State.mem_setSt (b : Byte) : (s.setSt b).mem = s.mem := rfl
@[simp] theorem State.disp_setSt (b : Byte) : (s.setSt b).disp = s.disp := rfl
@[simp] theorem State.key_setSt (b : Byte) : (s.setSt b).key = s.key := rfl
@[simp] theorem State.run_setSt (b : Byte) : (s.setSt b).run = s.run := rfl
@[simp] theorem State.accurate_setSt (b : Byte) : (s.setSt b).accurate = s.accurate := rfl
@[simp] theorem State.clockHz_setSt (b : Byte) : (s.setSt b).clockHz = s.clockHz := rfl
@[simp] theorem State.budget_setSt (b : Byte) : (s.setSt b).budget = s.budget := rfl
@[simp] theorem State.audioOn_setSt (b : Byte) : (s.setSt b).audioOn = s.audioOn := rfl
@[simp] theorem State.rom_setSt (b : Byte) : (s.setSt b).rom = s.rom := rfl
@[simp] theorem State.fault_setSt (b : Byte) : (s.setSt b).fault = s.fault := rfl
@[simp] theorem State.phase_setSt (b : Byte) : (s.setSt b).phase = s.phase := rfl
@[simp] theorem State.draws_setSt (b : Byte) : (s.setSt b).draws = s.draws := rfl
@[simp] theorem State.inputs_setSt (b : Byte) : (s.setSt b).inputs = s.inputs := rfl
@[simp] theorem State.outputs_setSt (b : Byte) : (s.setSt b).outputs = s.outputs := rfl

/-! ## setMem -/

@[simp] theorem State.v_setMem (m : Memory) : (s.setMem m).v = s.v := rfl
@[simp] theorem State.i_setMem (m : Memory) : (s.setMem m).i = s.i := rfl
@[simp] theorem State.pc_setMem (m : Memory) : (s.setMem m).pc = s.pc := rfl
@[simp] theorem State.stack_setMem (m : Memory) : (s.setMem m).stack = s.stack := rfl
@[simp] theorem State.dt_setMem (m : Memory) : (s.setMem m).dt = s.dt := rfl
@[simp] theorem State.st_setMem (m : Memory) : (s.setMem m).st = s.st := rfl
@[simp] theorem State.mem_setMem (m : Memory) : (s.setMem m).mem = m := rfl
@[simp] theorem State.disp_setMem (m : Memory) : (s.setMem m).disp = s.disp := rfl
@[simp] theorem State.key_setMem (m : Memory) : (s.setMem m).key = s.key := rfl
@[simp] theorem State.run_setMem (m : Memory) : (s.setMem m).run = s.run := rfl
@[simp] theorem State.accurate_setMem (m : Memory) : (s.setMem m).accurate = s.accurate := rfl
@[simp] theorem State.clockHz_setMem (m : Memory) : (s.setMem m).clockHz = s.clockHz := rfl
@[simp] theorem State.budget_setMem (m : Memory) : (s.setMem m).budget = s.budget := rfl
@[simp] theorem State.audioOn_setMem (m : Memory) : (s.setMem m).audioOn = s.audioOn := rfl
@[simp] theorem State.rom_setMem (m : Memory) : (s.setMem m).rom = s.rom := rfl
@[simp] theorem State.fault_setMem (m : Memory) : (s.setMem m).fault = s.fault := rfl
@[simp] theorem State.phase_setMem (m : Memory) : (s.setMem m).phase = s.phase := rfl
@[simp] theorem State.draws_setMem (m : Memory) : (s.setMem m).draws = s.draws := rfl
@[simp] theorem State.inputs_setMem (m : Memory) : (s.setMem m).inputs = s.inputs := rfl
@[simp] theorem State.outputs_setMem (m : Memory) : (s.setMem m).outputs = s.outputs := rfl

/-! ## setDisp -/

@[simp] theorem State.v_setDisp (d : Display) : (s.setDisp d).v = s.v := rfl
@[simp] theorem State.i_setDisp (d : Display) : (s.setDisp d).i = s.i := rfl
@[simp] theorem State.pc_setDisp (d : Display) : (s.setDisp d).pc = s.pc := rfl
@[simp] theorem State.stack_setDisp (d : Display) : (s.setDisp d).stack = s.stack := rfl
@[simp] theorem State.dt_setDisp (d : Display) : (s.setDisp d).dt = s.dt := rfl
@[simp] theorem State.st_setDisp (d : Display) : (s.setDisp d).st = s.st := rfl
@[simp] theorem State.mem_setDisp (d : Display) : (s.setDisp d).mem = s.mem := rfl
@[simp] theorem State.disp_setDisp (d : Display) : (s.setDisp d).disp = d := rfl
@[simp] theorem State.key_setDisp (d : Display) : (s.setDisp d).key = s.key := rfl
@[simp] theorem State.run_setDisp (d : Display) : (s.setDisp d).run = s.run := rfl
@[simp] theorem State.accurate_setDisp (d : Display) : (s.setDisp d).accurate = s.accurate := rfl
@[simp] theorem State.clockHz_setDisp (d : Display) : (s.setDisp d).clockHz = s.clockHz := rfl
@[simp] theorem State.budget_setDisp (d : Display) : (s.setDisp d).budget = s.budget := rfl
@[simp] theorem State.audioOn_setDisp (d : Display) : (s.setDisp d).audioOn = s.audioOn := rfl
@[simp] theorem State.rom_setDisp (d : Display) : (s.setDisp d).rom = s.rom := rfl
@[simp] theorem State.fault_setDisp (d : Display) : (s.setDisp d).fault = s.fault := rfl
@[simp] theorem State.phase_setDisp (d : Display) : (s.setDisp d).phase = s.phase := rfl
@[simp] theorem State.draws_setDisp (d : Display) : (s.setDisp d).draws = s.draws := rfl
@[simp] theorem State.inputs_setDisp (d : Display) : (s.setDisp d).inputs = s.inputs := rfl
@[simp] theorem State.outputs_setDisp (d : Display) : (s.setDisp d).outputs = s.outputs := rfl

/-! ## setStack -/

@[simp] theorem State.v_setStack (l : List Addr) : (s.setStack l).v = s.v := rfl
@[simp] theorem State.i_setStack (l : List Addr) : (s.setStack l).i = s.i := rfl
@[simp] theorem State.pc_setStack (l : List Addr) : (s.setStack l).pc = s.pc := rfl
@[simp] theorem State.stack_setStack (l : List Addr) : (s.setStack l).stack = l := rfl
@[simp] theorem State.dt_setStack (l : List Addr) : (s.setStack l).dt = s.dt := rfl
@[simp] theorem State.st_setStack (l : List Addr) : (s.setStack l).st = s.st := rfl
@[simp] theorem State.mem_setStack (l : List Addr) : (s.setStack l).mem = s.mem := rfl
@[simp] theorem State.disp_setStack (l : List Addr) : (s.setStack l).disp = s.disp := rfl
@[simp] theorem State.key_setStack (l : List Addr) : (s.setStack l).key = s.key := rfl
@[simp] theorem State.run_setStack (l : List Addr) : (s.setStack l).run = s.run := rfl
@[simp] theorem State.accurate_setStack (l : List Addr) : (s.setStack l).accurate = s.accurate := rfl
@[simp] theorem State.clockHz_setStack (l : List Addr) : (s.setStack l).clockHz = s.clockHz := rfl
@[simp] theorem State.budget_setStack (l : List Addr) : (s.setStack l).budget = s.budget := rfl
@[simp] theorem State.audioOn_setStack (l : List Addr) : (s.setStack l).audioOn = s.audioOn := rfl
@[simp] theorem State.rom_setStack (l : List Addr) : (s.setStack l).rom = s.rom := rfl
@[simp] theorem State.fault_setStack (l : List Addr) : (s.setStack l).fault = s.fault := rfl
@[simp] theorem State.phase_setStack (l : List Addr) : (s.setStack l).phase = s.phase := rfl
@[simp] theorem State.draws_setStack (l : List Addr) : (s.setStack l).draws = s.draws := rfl
@[simp] theorem State.inputs_setStack (l : List Addr) : (s.setStack l).inputs = s.inputs := rfl
@[simp] theorem State.outputs_setStack (l : List Addr) : (s.setStack l).outputs = s.outputs := rfl

/-! ## setPc -/

@[simp] theorem State.v_setPc (t : Addr) : (s.setPc t).v = s.v := rfl
@[simp] theorem State.i_setPc (t : Addr) : (s.setPc t).i = s.i := rfl
@[simp] theorem State.pc_setPc (t : Addr) : (s.setPc t).pc = t := rfl
@[simp] theorem State.stack_setPc (t : Addr) : (s.setPc t).stack = s.stack := rfl
@[simp] theorem State.dt_setPc (t : Addr) : (s.setPc t).dt = s.dt := rfl
@[simp] theorem State.st_setPc (t : Addr) : (s.setPc t).st = s.st := rfl
@[simp] theorem State.mem_setPc (t : Addr) : (s.setPc t).mem = s.mem := rfl
@[simp] theorem State.disp_setPc (t : Addr) : (s.setPc t).disp = s.disp := rfl
@[simp] theorem State.key_setPc (t : Addr) : (s.setPc t).key = s.key := rfl
@[simp] theorem State.run_setPc (t : Addr) : (s.setPc t).run = s.run := rfl
@[simp] theorem State.accurate_setPc (t : Addr) : (s.setPc t).accurate = s.accurate := rfl
@[simp] theorem State.clockHz_setPc (t : Addr) : (s.setPc t).clockHz = s.clockHz := rfl
@[simp] theorem State.budget_setPc (t : Addr) : (s.setPc t).budget = s.budget := rfl
@[simp] theorem State.audioOn_setPc (t : Addr) : (s.setPc t).audioOn = s.audioOn := rfl
@[simp] theorem State.rom_setPc (t : Addr) : (s.setPc t).rom = s.rom := rfl
@[simp] theorem State.fault_setPc (t : Addr) : (s.setPc t).fault = s.fault := rfl
@[simp] theorem State.phase_setPc (t : Addr) : (s.setPc t).phase = s.phase := rfl
@[simp] theorem State.draws_setPc (t : Addr) : (s.setPc t).draws = s.draws := rfl
@[simp] theorem State.inputs_setPc (t : Addr) : (s.setPc t).inputs = s.inputs := rfl
@[simp] theorem State.outputs_setPc (t : Addr) : (s.setPc t).outputs = s.outputs := rfl

/-! ## countDraw -/

@[simp] theorem State.v_countDraw : (s.countDraw).v = s.v := rfl
@[simp] theorem State.i_countDraw : (s.countDraw).i = s.i := rfl
@[simp] theorem State.pc_countDraw : (s.countDraw).pc = s.pc := rfl
@[simp] theorem State.stack_countDraw : (s.countDraw).stack = s.stack := rfl
@[simp] theorem State.dt_countDraw : (s.countDraw).dt = s.dt := rfl
@[simp] theorem State.st_countDraw : (s.countDraw).st = s.st := rfl
@[simp] theorem State.mem_countDraw : (s.countDraw).mem = s.mem := rfl
@[simp] theorem State.disp_countDraw : (s.countDraw).disp = s.disp := rfl
@[simp] theorem State.key_countDraw : (s.countDraw).key = s.key := rfl
@[simp] theorem State.run_countDraw : (s.countDraw).run = s.run := rfl
@[simp] theorem State.accurate_countDraw : (s.countDraw).accurate = s.accurate := rfl
@[simp] theorem State.clockHz_countDraw : (s.countDraw).clockHz = s.clockHz := rfl
@[simp] theorem State.budget_countDraw : (s.countDraw).budget = s.budget := rfl
@[simp] theorem State.audioOn_countDraw : (s.countDraw).audioOn = s.audioOn := rfl
@[simp] theorem State.rom_countDraw : (s.countDraw).rom = s.rom := rfl
@[simp] theorem State.fault_countDraw : (s.countDraw).fault = s.fault := rfl
@[simp] theorem State.phase_countDraw : (s.countDraw).phase = s.phase := rfl
@[simp] theorem State.draws_countDraw : (s.countDraw).draws = s.draws + 1 := rfl
@[simp] theorem State.inputs_countDraw : (s.countDraw).inputs = s.inputs := rfl
@[simp] theorem State.outputs_countDraw : (s.countDraw).outputs = s.outputs := rfl

/-! ## setInputs -/

@[simp] theorem State.v_setInputs (l : List (Option HostOp)) : (s.setInputs l).v = s.v := rfl
@[simp] theorem State.i_setInputs (l : List (Option HostOp)) : (s.setInputs l).i = s.i := rfl
@[simp] theorem State.pc_setInputs (l : List (Option HostOp)) : (s.setInputs l).pc = s.pc := rfl
@[simp] theorem State.stack_setInputs (l : List (Option HostOp)) : (s.setInputs l).stack = s.stack := rfl
@[simp] theorem State.dt_setInputs (l : List (Option HostOp)) : (s.setInputs l).dt = s.dt := rfl
@[simp] theorem State.st_setInputs (l : List (Option HostOp)) : (s.setInputs l).st = s.st := rfl
@[simp] theorem State.mem_setInputs (l : List (Option HostOp)) : (s.setInputs l).mem = s.mem := rfl
@[simp] theorem State.disp_setInputs (l : List (Option HostOp)) : (s.setInputs l).disp = s.disp := rfl
@[simp] theorem State.key_setInputs (l : List (Option HostOp)) : (s.setInputs l).key = s.key := rfl
@[simp] theorem State.run_setInputs (l : List (Option HostOp)) : (s.setInputs l).run = s.run := rfl
@[simp] theorem State.accurate_setInputs (l : List (Option HostOp)) : (s.setInputs l).accurate = s.accurate := rfl
@[simp] theorem State.clockHz_setInputs (l : List (Option HostOp)) : (s.setInputs l).clockHz = s.clockHz := rfl
@[simp] theorem State.budget_setInputs (l : List (Option HostOp)) : (s.setInputs l).budget = s.budget := rfl
@[simp] theorem State.audioOn_setInputs (l : List (Option HostOp)) : (s.setInputs l).audioOn = s.audioOn := rfl
@[simp] theorem State.rom_setInputs (l : List (Option HostOp)) : (s.setInputs l).rom = s.rom := rfl
@[simp] theorem State.fault_setInputs (l : List (Option HostOp)) : (s.setInputs l).fault = s.fault := rfl
@[simp] theorem State.phase_setInputs (l : List (Option HostOp)) : (s.setInputs l).phase = s.phase := rfl
@[simp] theorem State.draws_setInputs (l : List (Option HostOp)) : (s.setInputs l).draws = s.draws := rfl
@[simp] theorem State.inputs_setInputs (l : List (Option HostOp)) : (s.setInputs l).inputs = l := rfl
@[simp] theorem State.outputs_setInputs (l : List (Option HostOp)) : (s.setInputs l).outputs = s.outputs := rfl

/-! ## emit -/

@[simp] theorem State.v_emit (o : Output) : (s.emit o).v = s.v := rfl
@[simp] theorem State.i_emit (o : Output) : (s.emit o).i = s.i := rfl
@[simp] theorem State.pc_emit (o : Output) : (s.emit o).pc = s.pc := rfl
@[simp] theorem State.stack_emit (o : Output) : (s.emit o).stack = s.stack := rfl
@[simp] theorem State.dt_emit (o : Output) : (s.emit o).dt = s.dt := rfl
@[simp] theorem State.st_emit (o : Output) : (s.emit o).st = s.st := rfl
@[simp] theorem State.mem_emit (o : Output) : (s.emit o).mem = s.mem := rfl
@[simp] theorem State.disp_emit (o : Output) : (s.emit o).disp = s.disp := rfl
@[simp] theorem State.key_emit (o : Output) : (s.emit o).key = s.key := rfl
@[simp] theorem State.run_emit (o : Output) : (s.emit o).run = s.run := rfl
@[simp] theorem State.accurate_emit (o : Output) : (s.emit o).accurate = s.accurate := rfl
@[simp] theorem State.clockHz_emit (o : Output) : (s.emit o).clockHz = s.clockHz := rfl
@[simp] theorem State.budget_emit (o : Output) : (s.emit o).budget = s.budget := rfl
@[simp] theorem State.audioOn_emit (o : Output) : (s.emit o).audioOn = s.audioOn := rfl
@[simp] theorem State.rom_emit (o : Output) : (s.emit o).rom = s.rom := rfl
@[simp] theorem State.fault_emit (o : Output) : (s.emit o).fault = s.fault := rfl
@[simp] theorem State.phase_emit (o : Output) : (s.emit o).phase = s.phase := rfl
@[simp] theorem State.draws_emit (o : Output) : (s.emit o).draws = s.draws := rfl
@[simp] theorem State.inputs_emit (o : Output) : (s.emit o).inputs = s.inputs := rfl
@[simp] theorem State.outputs_emit (o : Output) : (s.emit o).outputs = o :: s.outputs := rfl

/-! ## Data registers -/

@[simp] theorem State.readV_setI (a : Addr) (r : Nibble) : (s.setI a).readV r = s.readV r := rfl
@[simp] theorem State.readV_setDt (b : Byte) (r : Nibble) : (s.setDt b).readV r = s.readV r := rfl
@[simp] theorem State.readV_setSt (b : Byte) (r : Nibble) : (s.setSt b).readV r = s.readV r := rfl
@[simp] theorem State.readV_setMem (m : Memory) (r : Nibble) : (s.setMem m).readV r = s.readV r := rfl
@[simp] theorem State.readV_setDisp (d : Display) (r : Nibble) : (s.setDisp d).readV r = s.readV r := rfl
@[simp] theorem State.readV_setStack (l : List Addr) (r : Nibble) : (s.setStack l).readV r = s.readV r := rfl
@[simp] theorem State.readV_setPc (t : Addr) (r : Nibble) : (s.setPc t).readV r = s.readV r := rfl
@[simp] theorem State.readV_countDraw (r : Nibble) : (s.countDraw).readV r = s.readV r := rfl
@[simp] theorem State.readV_setInputs (l : List (Option HostOp)) (r : Nibble) : (s.setInputs l).readV r = s.readV r := rfl
@[simp] theorem State.readV_emit (o : Output) (r : Nibble) : (s.emit o).readV r = s.readV r := rfl

/-- Writing a register changes that register and no other (R8, R13). -/
theorem State.readV_writeV (x : Nibble) (b : Byte) (r : Nibble) :
    (s.writeV x b).readV r = if r = x then b else s.readV r := by
  unfold State.readV State.writeV
  rw [Vector.getElem_set]
  by_cases h : r = x
  · simp [h]
  · rw [if_neg h, if_neg fun hn => h (BitVec.eq_of_toNat_eq hn.symm)]

@[simp] theorem State.readV_writeV_self (x : Nibble) (b : Byte) : (s.writeV x b).readV x = b := by
  simp [State.readV_writeV]

/-- Registers are what reading gives: two register files that read alike are equal. -/
theorem State.v_ext {s t : State} (h : ∀ r, s.readV r = t.readV r) : s.v = t.v := by
  refine Vector.ext fun k hk => ?_
  have := h (BitVec.ofNat 4 k)
  simpa [State.readV, Nat.mod_eq_of_lt hk] using this

/-! ## Compound updates -/

@[simp] theorem State.nextInstr_eq : s.nextInstr = s.setPc (s.pc + 2#12) := rfl

@[simp] theorem State.skipInstr_eq : s.skipInstr = s.setPc (s.pc + 4#12) := rfl

@[simp] theorem State.skipWhen_eq (c : Bool) :
    s.skipWhen c = s.setPc (if c then s.pc + 4#12 else s.pc + 2#12) := by
  cases c <;> rfl

@[simp] theorem State.setFlag_eq (f : Bool) : s.setFlag f = s.writeV vf (flagByte f) := rfl

@[simp] theorem State.writeResultAndFlag_eq (x : Nibble) (b : Byte) (f : Bool) :
    s.writeResultAndFlag x b f = (s.writeV x b).writeV vf (flagByte f) := rfl

@[simp] theorem State.pop_eq : s.pop = s.setStack s.stack.tail := rfl

theorem State.setInputs_self : s.setInputs s.inputs = s := rfl

theorem State.setPc_self : s.setPc s.pc = s := rfl

end Sys2Proof.Machine
end

