-- ==== Sys2Proof/Laws/Ops.lean ====
section
/-! SUPPORT. One lemma per shared operation that says what it can do: data addresses and memory accesses under either
`ADDR_WRAP` (spec/20_memory.md R36, R40, R41), the call stack, register ranges, and the end of an instruction. -/

namespace Sys2Proof.Machine

/-! ## Data addresses (R36) -/

/-- Under `wrap` every address is taken modulo 4096 and nothing is raised. -/
@[simp] theorem addr_wrap (ea : Nat) : addr .wrap ea = .ok (ea % memSize) := by
  unfold addr
  split
  · next h => rw [Nat.mod_eq_of_lt (by unfold memSize; omega)]
  · rfl

/-- An address that `addr` gives is an address of memory. -/
theorem addr_lt {mode : AddrMode} {ea a : Nat} (h : addr mode ea = .ok a) : a < memSize := by
  unfold addr at h
  split at h
  · cases h; unfold memSize; omega
  · cases mode
    · cases h; exact Nat.mod_lt _ (by decide)
    · cases h

/-! ## Loads and stores (R40, R41) -/

theorem loadBytes_wrap (m : Memory) (ea n : Nat) :
    loadBytes .wrap m ea n = .ok ((List.range n).map fun k => Memory.read ((ea + k) % memSize) m) := by
  induction n generalizing ea with
  | zero => rfl
  | succ n ih =>
    simp only [loadBytes, memRead, addr_wrap, ih, List.range_succ_eq_map, List.map_cons, List.map_map]
    simp [Function.comp_def, Nat.add_assoc, Nat.add_comm 1]

/-- Under either mode a store keeps the canonical form. -/
theorem storeBytes_wf {mode : AddrMode} {bs : List Byte} {ea : Nat} {m m' : Memory} (hm : m.wf = true)
    (h : storeBytes mode ea bs m = .ok m') : m'.wf = true := by
  induction bs generalizing ea m with
  | nil => cases h; exact hm
  | cons b bs ih =>
    simp only [storeBytes, memWrite] at h
    split at h
    · cases h
    · next m1 h1 =>
      split at h1
      · next a ha => cases h1; exact ih (Memory.wf_write b (addr_lt ha) hm) h
      · cases h1

/-- Under `wrap` a store always completes. -/
theorem storeBytes_wrap_ok (bs : List Byte) (ea : Nat) (m : Memory) :
    ∃ m', storeBytes .wrap ea bs m = .ok m' := by
  induction bs generalizing ea m with
  | nil => exact ⟨m, rfl⟩
  | cons b bs ih => simpa [storeBytes, memWrite] using ih (ea + 1) (Memory.write (ea % memSize) b m)

/-- A store leaves every byte alone that is not stored to. -/
theorem storeBytes_read_other {bs : List Byte} {ea a : Nat} {m m' : Memory}
    (h : storeBytes .wrap ea bs m = .ok m') (ha : ∀ k, k < bs.length → a ≠ (ea + k) % memSize) :
    Memory.read a m' = Memory.read a m := by
  induction bs generalizing ea m with
  | nil => cases h; rfl
  | cons b bs ih =>
    simp only [storeBytes, memWrite, addr_wrap] at h
    rw [ih h fun k hk => by simpa [Nat.add_assoc, Nat.add_comm 1] using ha (k + 1) (by simpa using hk)]
    exact Memory.read_write_of_ne b m (by simpa using ha 0 (by simp))

/-- What a store leaves in the bytes it stores to: no two of them are the same byte. -/
theorem storeBytes_read {bs : List Byte} {ea k : Nat} {m m' : Memory} (hm : m.wf = true)
    (h : storeBytes .wrap ea bs m = .ok m') (hlen : bs.length ≤ memSize) (hk : k < bs.length) :
    Memory.read ((ea + k) % memSize) m' = bs[k] := by
  induction bs generalizing ea m k with
  | nil => exact absurd hk (by simp)
  | cons b bs ih =>
    simp only [storeBytes, memWrite, addr_wrap] at h
    have hwf := Memory.wf_write (a := ea % memSize) b (Nat.mod_lt _ (by decide)) hm
    rw [List.length_cons] at hlen hk
    cases k with
    | zero =>
      rw [storeBytes_read_other h fun j hj => by unfold memSize at *; omega]
      simpa using Memory.read_write_self b hm
    | succ k =>
      have := ih hwf h (by omega) (by omega : k < bs.length)
      simpa [Nat.add_assoc, Nat.add_comm 1] using this

/-! ## The call stack (R19, R20) -/

theorem State.push_of_lt (s : State) (a : Addr) (h : s.stack.length < stackDepth) :
    s.push a = .ok (s.setStack (a :: s.stack)) := if_pos h

theorem State.push_full (s : State) (a : Addr) (h : stackDepth ≤ s.stack.length) :
    s.push a = .error (.stackOverflow s.pc) := if_neg (by omega)

/-! ## Register ranges (R97, R98) -/

@[simp] theorem State.regRange_length (s : State) (x : Nibble) : (s.regRange x).length = x.toNat + 1 := by
  simp [State.regRange]

theorem State.regRange_getElem (s : State) (x : Nibble) (k : Nat) (hk : k < (s.regRange x).length) :
    (s.regRange x)[k] = s.readV (BitVec.ofNat 4 k) := by
  simp [State.regRange, State.readVNat]

/-- Writing a range of registers is a write of `v` and of nothing else. -/
theorem State.writeRegs_eq (s : State) (k : Nat) (bs : List Byte) :
    s.writeRegs k bs = { s with v := (s.writeRegs k bs).v } := by
  induction bs generalizing s k with
  | nil => rfl
  | cons b bs ih => rw [State.writeRegs, ih (s.writeV (BitVec.ofNat 4 k) b)]; rfl

/-- Register by register, what writing a range leaves. -/
theorem State.readV_writeRegs (s : State) (k : Nat) (bs : List Byte) (hk : k + bs.length ≤ 16) (r : Nibble) :
    (s.writeRegs k bs).readV r =
      if k ≤ r.toNat then (bs[r.toNat - k]?).getD (s.readV r) else s.readV r := by
  induction bs generalizing s k with
  | nil => simp [State.writeRegs]
  | cons b bs ih =>
    rw [List.length_cons] at hk
    rw [State.writeRegs, ih (s.writeV (BitVec.ofNat 4 k) b) (k + 1) (by omega), State.readV_writeV]
    have hr : r = BitVec.ofNat 4 k ↔ r.toNat = k :=
      ⟨fun h => by rw [h]; simp; omega, fun h => BitVec.eq_of_toNat_eq (by simp; omega)⟩
    rcases Nat.lt_trichotomy r.toNat k with h | h | h
    · rw [if_neg (show ¬ k + 1 ≤ r.toNat by omega), if_neg (show ¬ r = BitVec.ofNat 4 k by rw [hr]; omega),
        if_neg (show ¬ k ≤ r.toNat by omega)]
    · rw [if_neg (show ¬ k + 1 ≤ r.toNat by omega), if_pos (hr.mpr h), if_pos (show k ≤ r.toNat by omega)]
      simp [h]
    · rw [if_pos (show k + 1 ≤ r.toNat by omega), if_neg (show ¬ r = BitVec.ofNat 4 k by rw [hr]; omega),
        if_pos (show k ≤ r.toNat by omega)]
      obtain ⟨j, hj⟩ : ∃ j, r.toNat = k + 1 + j := ⟨r.toNat - (k + 1), by omega⟩
      simp [hj, show k + 1 + j - k = j + 1 by omega]

/-! ## The end of an instruction (R64, R66) -/

@[simp] theorem finish_ok (s : State) : finish (.ok s) = .next s := rfl

@[simp] theorem finish_error (f : Fault) : finish (.error f) = .fault f := rfl

/-- Raising a fault on a block that has none marks it and changes nothing else (R110). -/
theorem State.raise_of_none (s : State) (f : Fault) (h : s.fault = none) :
    s.raise f = { s with fault := some f } := by
  simp [State.raise, h]

end Sys2Proof.Machine
end

