-- ==== Sys2Proof/Laws/Exec.lean ====
section
/-! SUPPORT. The meanings whose next state is not plain from their definition, as equations under this hardware's
configuration, and one inversion lemma for `exec`: whatever an instruction does, it writes only the nine fields that
instructions can write. -/

namespace Sys2Proof.Machine

/-! ## Meanings as equations -/

theorem State.storeAtI_eq (s : State) (bytes : List Byte) :
    ∃ m, storeBytes .wrap s.i.toNat bytes s.mem = .ok m ∧ s.storeAtI bytes = .ok (s.setMem m) := by
  obtain ⟨m, h⟩ := storeBytes_wrap_ok bytes s.i.toNat s.mem
  exact ⟨m, h, by simp [State.storeAtI, quirks, State.ea, h, Except.map]⟩

theorem exec_ldB (x : Nibble) (s : State) :
    ∃ m, storeBytes .wrap s.i.toNat (decimalDigits (s.readV x)) s.mem = .ok m ∧
      exec (.ldB x) s = .next (s.setMem m).nextInstr := by
  obtain ⟨m, h, h'⟩ := s.storeAtI_eq (decimalDigits (s.readV x))
  exact ⟨m, h, by simp [exec, execLdB, h', Except.map]⟩

theorem exec_ldMemVx (x : Nibble) (s : State) :
    ∃ m, storeBytes .wrap s.i.toNat (s.regRange x) s.mem = .ok m ∧
      exec (.ldMemVx x) s = .next (s.setMem m).nextInstr := by
  obtain ⟨m, h, h'⟩ := s.storeAtI_eq (s.regRange x)
  exact ⟨m, h, by simp [exec, execLdMemVx, h', Except.map, State.advanceI, quirks]⟩

theorem exec_ldVxMem (x : Nibble) (s : State) :
    exec (.ldVxMem x) s = .next (s.writeRegs 0
      ((List.range (x.toNat + 1)).map fun k => Memory.read ((s.i.toNat + k) % memSize) s.mem)).nextInstr := by
  simp [exec, execLdVxMem, loadBytes_wrap, quirks, Except.map, State.advanceI, State.ea]

theorem exec_drw (x y n : Nibble) (s : State) :
    exec (.drw x y n) s = .next (((s.setDisp (s.sprite x y (spriteBytes s n)).1).setFlag
      (s.sprite x y (spriteBytes s n)).2).nextInstr) := by
  simp [exec, execDrw, loadBytes_wrap, quirks, Except.map, spriteBytes, State.ea]

theorem State.sprite_eq (s : State) (x y : Nibble) (bytes : List Byte) :
    s.sprite x y bytes = drawRows (s.readV x).toNat (s.readV y).toNat bytes (s.disp, false) := by
  simp [State.sprite, quirks, startCoord]

theorem exec_call_ok (nnn : Addr) (s : State) (h : s.stack.length < stackDepth) :
    exec (.call nnn) s = .next ((s.setStack ((s.pc + 2#12) :: s.stack)).setPc nnn) := by
  simp [exec, execCall, State.push_of_lt s _ h, Except.map]

theorem exec_call_full (nnn : Addr) (s : State) (h : stackDepth ≤ s.stack.length) :
    exec (.call nnn) s = .fault (.stackOverflow s.pc) := by
  simp [exec, execCall, State.push_full s _ h, Except.map]

theorem State.keyOf_ok (s : State) (x : Nibble) (h : (s.readV x).toNat ≤ 0x0F) :
    s.keyOf x = .ok (s.keyDown (s.readV x).toNat) := if_neg (by omega)

theorem State.keyOf_out (s : State) (x : Nibble) (h : 0x0F < (s.readV x).toNat) :
    s.keyOf x = .error (.keyIndexOutOfRange (s.readV x)) := if_pos h

theorem State.keyDown_eq (s : State) (k : Fin 16) : s.keyDown k.val = s.key[k] := by simp [State.keyDown]

/-! ## What any instruction can do -/

/-- `t` is `s` with only fields changed that instructions can write. -/
def WritesOnlyInstrFields (s t : State) : Prop :=
  ∃ v i pc stack dt st mem disp draws,
    t = { s with v := v, i := i, pc := pc, stack := stack, dt := dt, st := st, mem := mem, disp := disp,
                 draws := draws }

/-- The one inversion lemma for `exec`. -/
theorem exec_writes {i : Instr} {s t : State} (h : exec i s = .next t) : WritesOnlyInstrFields s t := by
  cases i
  case call nnn =>
    by_cases hl : s.stack.length < stackDepth
    · rw [exec_call_ok nnn s hl] at h; cases h; exact ⟨_, _, _, _, _, _, _, _, _, rfl⟩
    · rw [exec_call_full nnn s (by omega)] at h; cases h
  case skp x =>
    by_cases hk : (s.readV x).toNat ≤ 0x0F
    · simp [exec, execSkp, s.keyOf_ok x hk, Except.map] at h; subst h; exact ⟨_, _, _, _, _, _, _, _, _, rfl⟩
    · simp [exec, execSkp, s.keyOf_out x (by omega), Except.map] at h
  case sknp x =>
    by_cases hk : (s.readV x).toNat ≤ 0x0F
    · simp [exec, execSknp, s.keyOf_ok x hk, Except.map] at h; subst h; exact ⟨_, _, _, _, _, _, _, _, _, rfl⟩
    · simp [exec, execSknp, s.keyOf_out x (by omega), Except.map] at h
  case ldB x => obtain ⟨m, -, h'⟩ := exec_ldB x s; rw [h'] at h; cases h; exact ⟨_, _, _, _, _, _, _, _, _, rfl⟩
  case ldMemVx x =>
    obtain ⟨m, -, h'⟩ := exec_ldMemVx x s; rw [h'] at h; cases h; exact ⟨_, _, _, _, _, _, _, _, _, rfl⟩
  case ldVxMem x =>
    rw [exec_ldVxMem, State.writeRegs_eq] at h; cases h; exact ⟨_, _, _, _, _, _, _, _, _, rfl⟩
  case drw x y n => rw [exec_drw] at h; cases h; exact ⟨_, _, _, _, _, _, _, _, _, rfl⟩
  case ldVxK x =>
    cases hk : s.lowestKey <;> simp [exec, execLdVxK, hk, writeAndNext] at h <;> subst h <;>
      exact ⟨_, _, _, _, _, _, _, _, _, rfl⟩
  case seByte | sneByte | seReg | sneReg =>
    simp only [exec, execSeByte, execSneByte, execSeReg, execSneReg, skipIfEqual, State.skipWhen_eq] at h
    cases h; exact ⟨_, _, _, _, _, _, _, _, _, rfl⟩
  all_goals (cases h; exact ⟨_, _, _, _, _, _, _, _, _, rfl⟩)

/-- What any decoded word can do. -/
theorem execDecoded_writes {d : Decoded} {s t : State} (h : execDecoded d s = .next t) :
    WritesOnlyInstrFields s t := by
  cases d with
  | instr i => exact exec_writes h
  | unmatched w => cases h; exact ⟨_, _, _, _, _, _, _, _, _, rfl⟩

end Sys2Proof.Machine
end

