-- ==== Sys2Proof/Laws/PerInstr.lean ====
section
/-! SUPPORT. Per-instruction lemmas, one for each constructor of `Instr`. Family EncodeRow: the word of an instruction
fits its own row of the table of spec/30_encoding.md R52. -/

namespace Sys2Proof.Laws

/-- A word laid out as `NNN`, masked as the rows of that format mask it. -/
theorem mask_wordNnn (op op' : Nibble) (nnn nnn' : Addr) :
    wordNnn op nnn &&& wordNnn op' nnn' = wordNnn (op &&& op') (nnn &&& nnn') := BitVec.and_append

/-- A word laid out as `XKK`, masked as the rows of that format mask it. -/
theorem mask_wordXkk (op op' x x' : Nibble) (kk kk' : Byte) :
    wordXkk op x kk &&& wordXkk op' x' kk' = wordXkk (op &&& op') (x &&& x') (kk &&& kk') := by
  unfold wordXkk; rw [BitVec.and_append, BitVec.and_append]

/-- A word laid out as `XYN`, masked as the rows of that format mask it. -/
theorem mask_wordXyn (op op' x x' y y' n n' : Nibble) :
    wordXyn op x y n &&& wordXyn op' x' y' n' = wordXyn (op &&& op') (x &&& x') (y &&& y') (n &&& n') := by
  unfold wordXyn; rw [BitVec.and_append, BitVec.and_append, BitVec.and_append]

/-- The word of an `NNN` row whose operand is free. -/
theorem fits_nnn (p : Pattern) (op : Nibble) (nnn : Addr) (hm : p.mask = wordNnn 0xF#4 0x000#12)
    (hv : p.value = wordNnn op 0x000#12) : p.fits (wordNnn op nnn) = true := by
  have h : op &&& 0xF#4 = op := BitVec.and_allOnes
  simp [Pattern.fits, hm, hv, mask_wordNnn, h]

/-- The word of an `XKK` row whose operands are free. -/
theorem fits_xkk (p : Pattern) (op x : Nibble) (kk : Byte) (hm : p.mask = wordXkk 0xF#4 0x0#4 0x00#8)
    (hv : p.value = wordXkk op 0x0#4 0x00#8) : p.fits (wordXkk op x kk) = true := by
  have h : op &&& 0xF#4 = op := BitVec.and_allOnes
  simp [Pattern.fits, hm, hv, mask_wordXkk, h]

/-- The word of a row with a fixed low byte. -/
theorem fits_xff (p : Pattern) (op x : Nibble) (ff : Byte) (hm : p.mask = wordXkk 0xF#4 0x0#4 0xFF#8)
    (hv : p.value = wordXkk op 0x0#4 ff) : p.fits (wordXkk op x ff) = true := by
  have h : op &&& 0xF#4 = op := BitVec.and_allOnes
  have h' : ff &&& 0xFF#8 = ff := BitVec.and_allOnes
  simp [Pattern.fits, hm, hv, mask_wordXkk, h, h']

/-- The word of a row with a fixed low nibble. -/
theorem fits_xy0 (p : Pattern) (op x y n : Nibble) (hm : p.mask = wordXyn 0xF#4 0x0#4 0x0#4 0xF#4)
    (hv : p.value = wordXyn op 0x0#4 0x0#4 n) : p.fits (wordXyn op x y n) = true := by
  have h : op &&& 0xF#4 = op := BitVec.and_allOnes
  have h' : n &&& 0xF#4 = n := BitVec.and_allOnes
  simp [Pattern.fits, hm, hv, mask_wordXyn, h, h']

/-- The word of an `XYN` row whose operands are free. -/
theorem fits_xyn (p : Pattern) (op x y n : Nibble) (hm : p.mask = wordXyn 0xF#4 0x0#4 0x0#4 0x0#4)
    (hv : p.value = wordXyn op 0x0#4 0x0#4 0x0#4) : p.fits (wordXyn op x y n) = true := by
  have h : op &&& 0xF#4 = op := BitVec.and_allOnes
  simp [Pattern.fits, hm, hv, mask_wordXyn, h]

namespace EncodeRow

/-- The word of `i` fits the row of `i`'s pattern. -/
def Statement (i : Instr) : Prop := i.pattern.fits (encode i) = true

theorem sys (nnn : Addr) : Statement (.sys nnn) := fits_nnn _ _ nnn rfl rfl
theorem cls : Statement .cls := rfl
theorem ret : Statement .ret := rfl
theorem jp (nnn : Addr) : Statement (.jp nnn) := fits_nnn _ _ nnn rfl rfl
theorem call (nnn : Addr) : Statement (.call nnn) := fits_nnn _ _ nnn rfl rfl
theorem seByte (x : Nibble) (kk : Byte) : Statement (.seByte x kk) := fits_xkk _ _ x kk rfl rfl
theorem sneByte (x : Nibble) (kk : Byte) : Statement (.sneByte x kk) := fits_xkk _ _ x kk rfl rfl
theorem seReg (x : Nibble) (y : Nibble) : Statement (.seReg x y) := fits_xy0 _ _ x y _ rfl rfl
theorem ldByte (x : Nibble) (kk : Byte) : Statement (.ldByte x kk) := fits_xkk _ _ x kk rfl rfl
theorem addByte (x : Nibble) (kk : Byte) : Statement (.addByte x kk) := fits_xkk _ _ x kk rfl rfl
theorem ldReg (x : Nibble) (y : Nibble) : Statement (.ldReg x y) := fits_xy0 _ _ x y _ rfl rfl
theorem orReg (x : Nibble) (y : Nibble) : Statement (.orReg x y) := fits_xy0 _ _ x y _ rfl rfl
theorem andReg (x : Nibble) (y : Nibble) : Statement (.andReg x y) := fits_xy0 _ _ x y _ rfl rfl
theorem xorReg (x : Nibble) (y : Nibble) : Statement (.xorReg x y) := fits_xy0 _ _ x y _ rfl rfl
theorem addReg (x : Nibble) (y : Nibble) : Statement (.addReg x y) := fits_xy0 _ _ x y _ rfl rfl
theorem sub (x : Nibble) (y : Nibble) : Statement (.sub x y) := fits_xy0 _ _ x y _ rfl rfl
theorem shr (x : Nibble) (y : Nibble) : Statement (.shr x y) := fits_xy0 _ _ x y _ rfl rfl
theorem subn (x : Nibble) (y : Nibble) : Statement (.subn x y) := fits_xy0 _ _ x y _ rfl rfl
theorem shl (x : Nibble) (y : Nibble) : Statement (.shl x y) := fits_xy0 _ _ x y _ rfl rfl
theorem sneReg (x : Nibble) (y : Nibble) : Statement (.sneReg x y) := fits_xy0 _ _ x y _ rfl rfl
theorem ldI (nnn : Addr) : Statement (.ldI nnn) := fits_nnn _ _ nnn rfl rfl
theorem jpV0 (nnn : Addr) : Statement (.jpV0 nnn) := fits_nnn _ _ nnn rfl rfl
theorem rnd (x : Nibble) (kk : Byte) : Statement (.rnd x kk) := fits_xkk _ _ x kk rfl rfl
theorem drw (x : Nibble) (y : Nibble) (n : Nibble) : Statement (.drw x y n) := fits_xyn _ _ x y n rfl rfl
theorem skp (x : Nibble) : Statement (.skp x) := fits_xff _ _ x _ rfl rfl
theorem sknp (x : Nibble) : Statement (.sknp x) := fits_xff _ _ x _ rfl rfl
theorem ldVxDt (x : Nibble) : Statement (.ldVxDt x) := fits_xff _ _ x _ rfl rfl
theorem ldVxK (x : Nibble) : Statement (.ldVxK x) := fits_xff _ _ x _ rfl rfl
theorem ldDtVx (x : Nibble) : Statement (.ldDtVx x) := fits_xff _ _ x _ rfl rfl
theorem ldStVx (x : Nibble) : Statement (.ldStVx x) := fits_xff _ _ x _ rfl rfl
theorem addI (x : Nibble) : Statement (.addI x) := fits_xff _ _ x _ rfl rfl
theorem ldF (x : Nibble) : Statement (.ldF x) := fits_xff _ _ x _ rfl rfl
theorem ldB (x : Nibble) : Statement (.ldB x) := fits_xff _ _ x _ rfl rfl
theorem ldMemVx (x : Nibble) : Statement (.ldMemVx x) := fits_xff _ _ x _ rfl rfl
theorem ldVxMem (x : Nibble) : Statement (.ldVxMem x) := fits_xff _ _ x _ rfl rfl

end EncodeRow

end Sys2Proof.Laws
end

