-- ==== Sys2Proof/Laws/RunLoop.lean ====
section
/-! SUPPORT. The run loop: what each of its events leaves, and one inversion lemma for `step` that says everything a
step can do. -/

namespace Sys2Proof.Machine

/-! ## The boundary before an event -/

@[simp] theorem afterBoundary_v (s : State) : (afterBoundary s).v = s.v := rfl
@[simp] theorem afterBoundary_i (s : State) : (afterBoundary s).i = s.i := rfl
@[simp] theorem afterBoundary_pc (s : State) : (afterBoundary s).pc = s.pc := rfl
@[simp] theorem afterBoundary_stack (s : State) : (afterBoundary s).stack = s.stack := rfl
@[simp] theorem afterBoundary_dt (s : State) : (afterBoundary s).dt = s.dt := rfl
@[simp] theorem afterBoundary_st (s : State) : (afterBoundary s).st = s.st := rfl
@[simp] theorem afterBoundary_mem (s : State) : (afterBoundary s).mem = s.mem := rfl
@[simp] theorem afterBoundary_disp (s : State) : (afterBoundary s).disp = s.disp := rfl
@[simp] theorem afterBoundary_key (s : State) : (afterBoundary s).key = s.key := rfl
@[simp] theorem afterBoundary_run (s : State) : (afterBoundary s).run = s.run := rfl
@[simp] theorem afterBoundary_accurate (s : State) : (afterBoundary s).accurate = s.accurate := rfl
@[simp] theorem afterBoundary_clockHz (s : State) : (afterBoundary s).clockHz = s.clockHz := rfl
@[simp] theorem afterBoundary_budget (s : State) : (afterBoundary s).budget = s.budget := rfl
@[simp] theorem afterBoundary_audioOn (s : State) : (afterBoundary s).audioOn = s.audioOn := rfl
@[simp] theorem afterBoundary_rom (s : State) : (afterBoundary s).rom = s.rom := rfl
@[simp] theorem afterBoundary_fault (s : State) : (afterBoundary s).fault = s.fault := rfl
@[simp] theorem afterBoundary_phase (s : State) : (afterBoundary s).phase = s.phase := rfl
@[simp] theorem afterBoundary_draws (s : State) : (afterBoundary s).draws = s.draws := rfl
@[simp] theorem afterBoundary_inputs (s : State) : (afterBoundary s).inputs = s.inputs.tail := rfl
@[simp] theorem afterBoundary_outputs (s : State) : (afterBoundary s).outputs = s.outputs := rfl

@[simp] theorem afterBoundary_readV (s : State) (r : Nibble) : (afterBoundary s).readV r = s.readV r := rfl

@[simp] theorem afterBoundary_fetch (s : State) : (afterBoundary s).fetch = s.fetch := rfl

theorem afterBoundary_of_nil {s : State} (h : s.inputs = []) : afterBoundary s = s := by
  obtain ⟨⟩ := s; cases h; rfl

/-- With no move of the host, a step is the block's own event. -/
theorem step_of_noMove {s : State} (h : NoMove s) : step s = blockStep (afterBoundary s) := by
  rcases h with h | ⟨rest, h⟩
  · rw [afterBoundary_of_nil h]; simp [step, machineStep, h]
  · simp [step, machineStep, afterBoundary, h]

theorem step_of_move {s : State} {op : HostOp} {rest : List (Option HostOp)} (h : s.inputs = some op :: rest) :
    step s = .next ((s.setInputs rest).hostOp op) := by
  simp [step, machineStep, h]

theorem noMove_or_move (s : State) : NoMove s ∨ ∃ op rest, s.inputs = some op :: rest := by
  unfold NoMove
  rcases h : s.inputs with _ | ⟨_ | op, rest⟩
  · exact .inl (.inl rfl)
  · exact .inl (.inr ⟨rest, rfl⟩)
  · exact .inr ⟨op, rest, rfl⟩

/-- A block that runs, with no fault marked and no move of the host, does what its phase says. -/
theorem step_of_live {s : State} (hl : Live s) (hn : NoMove s) : step s = runningStep (afterBoundary s) := by
  rw [step_of_noMove hn]
  simp [blockStep, hl.1, hl.2]

/-- The word executed is the word fetched. -/
@[simp] theorem State.nextDecoded_eq (s : State) : s.nextDecoded = decode s.fetch := by
  simp [State.nextDecoded, decodeBytes]

@[simp] theorem stalls_afterBoundary (d : Decoded) (s : State) : stalls d (afterBoundary s) = stalls d s := by
  cases d <;> rfl

/-! ## Frames -/

/-- A timer's decrement stops at 0 (R117). -/
theorem tick_toNat (t : Byte) : (tick t).toNat = t.toNat - 1 := by
  unfold tick
  split
  · rw [BitVec.toNat_sub_of_le (BitVec.le_def.mpr (by simpa using by omega))]; rfl
  · omega

/-- The start of a frame writes the timers, the phase and the budget. -/
theorem State.beginFrame_eq (s : State) :
    s.tickTimers.beginBatch =
      { s with
        dt := tick s.dt
        st := tick s.st
        budget := if s.accurate then replenish s.budget else s.budget
        phase := if s.accurate then .timed else .batch (batchSize s.clockHz) } := by
  cases h : s.accurate <;> simp [State.beginBatch, State.tickTimers, h]

/-- The end of a frame writes the sound state, the outputs and the phase (R118, R119). -/
theorem State.finishFrame_eq (s : State) :
    s.finishFrame =
      { s with
        phase := .frameStart
        audioOn := decide (s.st.toNat > 0)
        outputs :=
          if decide (s.st.toNat > 0) = s.audioOn then .displayUpdate s.disp :: s.outputs
          else .audioStateChange (decide (s.st.toNat > 0)) :: .displayUpdate s.disp :: s.outputs } := by
  unfold State.finishFrame State.evalSound State.publish State.emit
  by_cases h : decide (s.st.toNat > 0) = s.audioOn
  · simp [h]
  · simp [h]

/-- The cap keeps the budget within one frame (R129, R130). -/
theorem replenish_le (b : Rat) : replenish b ≤ frameUs := by
  unfold replenish; split
  · next h => exact h
  · exact le_refl _

theorem frameUs_pos : 0 < frameUs := by norm_num [frameUs]

theorem replenish_nonneg {b : Rat} (h : 0 ≤ b) : 0 ≤ replenish b := by
  unfold replenish; split
  · exact add_nonneg h frameUs_pos.le
  · exact frameUs_pos.le

theorem dur_pos (p : Pattern) : 0 < dur p := by
  unfold dur; split
  · next h => exact h.1
  · exact frameUs_pos

theorem dur_le (p : Pattern) : dur p ≤ frameUs := by
  unfold dur; split
  · next h => exact h.2
  · exact le_refl _

theorem durationOf_pos (d : Decoded) : 0 < durationOf d := by
  cases d with
  | instr i => exact dur_pos i.pattern
  | unmatched w =>
    show 0 < durUnmatched
    unfold durUnmatched; split
    · next h => exact h
    · exact frameUs_pos

/-! ## Reset by the host -/

/-- Turning the sound off writes the sound state, and reports a change (R124). -/
theorem State.audioOff_eq (s : State) :
    s.audioOff =
      { s with
        audioOn := false
        outputs := if s.audioOn = true then .audioStateChange false :: s.outputs else s.outputs } := by
  cases h : s.audioOn
  · obtain ⟨⟩ := s; cases h; rfl
  · simp [State.audioOff, State.emit, h]

/-! ## Everything a step can do -/

/-- The events of a step that answers a next state: `StepCase s t` when one of them leads from `s` to `t`. -/
inductive StepCase (s t : State) : Prop
  /-- a move of the host -/
  | move (op : HostOp) (rest : List (Option HostOp)) (h : s.inputs = some op :: rest)
      (ht : t = (s.setInputs rest).hostOp op)
  /-- the block does not run: nothing but the boundary passes -/
  | idle (hn : NoMove s) (hf : s.fault = none) (hr : s.run ≠ .running)
      (ht : t = afterBoundary s)
  /-- a frame begins -/
  | frameStart (hn : NoMove s) (hl : Live s) (hp : s.phase = .frameStart)
      (ht : t = (afterBoundary s).tickTimers.beginBatch)
  /-- a frame ends -/
  | frameEnd (hn : NoMove s) (hl : Live s)
      (hp : s.phase = .batch 0 ∨ s.phase = .frameEnd ∨
        (s.phase = .timed ∧ s.budget < durationOf (decode s.fetch)))
      (ht : t = (afterBoundary s).finishFrame)
  /-- a step of an approximate batch executes -/
  | approximate (hn : NoMove s) (hl : Live s) (left : Nat) (hp : s.phase = .batch (left + 1)) (u : State)
      (he : execDecoded (decode s.fetch) (afterBoundary s) = .next u)
      (ht : t = { u with phase := .batch left })
  /-- a step of an approximate batch raises a model fault -/
  | approximateFault (hn : NoMove s) (hl : Live s) (left : Nat) (hp : s.phase = .batch (left + 1)) (f : Fault)
      (he : execDecoded (decode s.fetch) (afterBoundary s) = .fault f)
      (ht : t = { afterBoundary s with phase := .batch left, fault := some f })
  /-- a step of a cycle-accurate batch executes and goes on -/
  | accurate (hn : NoMove s) (hl : Live s) (hp : s.phase = .timed)
      (hd : durationOf (decode s.fetch) ≤ s.budget) (u : State)
      (he : execDecoded (decode s.fetch) (afterBoundary s) = .next u)
      (ht : t = { u with budget := s.budget - durationOf (decode s.fetch) })
  /-- a step of a cycle-accurate batch stalls -/
  | accurateStall (hn : NoMove s) (hl : Live s) (hp : s.phase = .timed)
      (hd : durationOf (decode s.fetch) ≤ s.budget) (u : State)
      (he : execDecoded (decode s.fetch) (afterBoundary s) = .next u)
      (ht : t = { u with budget := s.budget - durationOf (decode s.fetch), phase := .frameEnd })
  /-- a step of a cycle-accurate batch raises a model fault -/
  | accurateFault (hn : NoMove s) (hl : Live s) (hp : s.phase = .timed)
      (hd : durationOf (decode s.fetch) ≤ s.budget) (f : Fault)
      (he : execDecoded (decode s.fetch) (afterBoundary s) = .fault f)
      (ht : t = { afterBoundary s with budget := s.budget - durationOf (decode s.fetch), fault := some f })

theorem execDecoded_budget {d : Decoded} {s t : State} (h : execDecoded d s = .next t) : t.budget = s.budget := by
  obtain ⟨_, _, _, _, _, _, _, _, _, rfl⟩ := execDecoded_writes h; rfl

/-- The one inversion lemma for `step`. -/
theorem step_cases {s t : State} (h : step s = .next t) : StepCase s t := by
  rcases noMove_or_move s with hn | ⟨op, rest, hi⟩
  case inr => rw [step_of_move hi] at h; cases h; exact .move op rest hi rfl
  cases hf : s.fault with
  | some f => rw [step_of_noMove hn] at h; simp [blockStep, hf] at h
  | none =>
    by_cases hr : s.run = .running
    case neg =>
      rw [step_of_noMove hn] at h
      cases hr' : s.run <;> simp [blockStep, hf, hr'] at h
      · subst h; exact .idle hn hf hr rfl
      · subst h; exact .idle hn hf hr rfl
      · exact absurd hr' hr
    have hl : Live s := ⟨hr, hf⟩
    rw [step_of_live hl hn] at h
    cases hp : s.phase with
    | frameStart => simp [runningStep, hp] at h; subst h; exact .frameStart hn hl hp rfl
    | frameEnd => simp [runningStep, hp] at h; subst h; exact .frameEnd hn hl (.inr (.inl hp)) rfl
    | batch left =>
      cases left with
      | zero => simp [runningStep, hp] at h; subst h; exact .frameEnd hn hl (.inl hp) rfl
      | succ left =>
        cases he : execDecoded (decode s.fetch) (afterBoundary s) with
        | next u =>
          cases hs : stalls (decode s.fetch) s <;>
            simp [runningStep, hp, approximateStep, decodeExecute, he, hs] at h <;> subst h <;>
            exact .approximate hn hl left hp u he rfl
        | fault f =>
          simp [runningStep, hp, approximateStep, decodeExecute, he, State.raise, hf] at h
          subst h; exact .approximateFault hn hl left hp f he rfl
        | refused r => simp [runningStep, hp, approximateStep, decodeExecute, he] at h
    | timed =>
      by_cases hd : s.budget < durationOf (decode s.fetch)
      · simp [runningStep, hp, accurateStep, hd] at h; subst h; exact .frameEnd hn hl (.inr (.inr ⟨hp, hd⟩)) rfl
      · cases he : execDecoded (decode s.fetch) (afterBoundary s) with
        | next u =>
          have hb : u.budget = s.budget := (execDecoded_budget he).trans rfl
          cases hs : stalls (decode s.fetch) s <;>
            simp [runningStep, hp, accurateStep, hd, decodeExecute, he, hs, hb] at h <;> subst h
          · exact .accurate hn hl hp (not_lt.mp hd) u he rfl
          · exact .accurateStall hn hl hp (not_lt.mp hd) u he rfl
        | fault f =>
          simp [runningStep, hp, accurateStep, hd, decodeExecute, he, State.raise, hf] at h
          subst h
          simpa [hp] using StepCase.accurateFault hn hl hp (not_lt.mp hd) f he rfl
        | refused r => simp [runningStep, hp, accurateStep, hd, decodeExecute, he] at h

end Sys2Proof.Machine
end

