-- ==== Sys2Proof/Tests/Slice0.lean ====
section
/-! SUPPORT. The model's own tests: the ill-formed terms, one word written out from spec/30_encoding.md R52 for every
constructor, one step for each instruction with the values of spec/95_test_vectors.md (the vector's name in the comment),
and a witness for the hypotheses of every obligation that has some. -/

namespace Sys2Proof.Tests

open Sys2Proof.Machine

/-! ## Ill-formed terms (R53) -/

theorem test_sys_with_the_word_of_cls_is_refused : (Instr.sys 0x0E0#12).wellFormed = false := by decide
theorem test_sys_with_the_word_of_ret_is_refused : (Instr.sys 0x0EE#12).wellFormed = false := by decide
theorem test_sys_beside_them_is_accepted : (Instr.sys 0x0E1#12).wellFormed = true := by decide

/-! ## Decoding: the bits of each word are the format of R49 and the row of R52, written out -/

theorem test_decode_sys : decode 0b0000_0001_0010_0011#16 = .instr (.sys 0x123#12) := by decide
theorem test_decode_cls : decode 0b0000_0000_1110_0000#16 = .instr .cls := by decide
theorem test_decode_ret : decode 0b0000_0000_1110_1110#16 = .instr .ret := by decide
theorem test_decode_jp : decode 0b0001_0010_0011_0100#16 = .instr (.jp 0x234#12) := by decide
theorem test_decode_call : decode 0b0010_0011_0000_0001#16 = .instr (.call 0x301#12) := by decide
theorem test_decode_seByte : decode 0b0011_0011_0001_0000#16 = .instr (.seByte 3#4 0x10#8) := by decide
theorem test_decode_sneByte : decode 0b0100_0001_1000_0010#16 = .instr (.sneByte 1#4 0x82#8) := by decide
theorem test_decode_seReg : decode 0b0101_0001_0010_0000#16 = .instr (.seReg 1#4 2#4) := by decide
theorem test_decode_ldByte : decode 0b0110_0010_1010_1011#16 = .instr (.ldByte 2#4 0xAB#8) := by decide
theorem test_decode_addByte : decode 0b0111_1111_0000_0001#16 = .instr (.addByte 15#4 0x01#8) := by decide
theorem test_decode_ldReg : decode 0b1000_0001_0010_0000#16 = .instr (.ldReg 1#4 2#4) := by decide
theorem test_decode_orReg : decode 0b1000_0001_0010_0001#16 = .instr (.orReg 1#4 2#4) := by decide
theorem test_decode_andReg : decode 0b1000_0001_0010_0010#16 = .instr (.andReg 1#4 2#4) := by decide
theorem test_decode_xorReg : decode 0b1000_0001_0010_0011#16 = .instr (.xorReg 1#4 2#4) := by decide
theorem test_decode_addReg : decode 0b1000_0001_0010_0100#16 = .instr (.addReg 1#4 2#4) := by decide
theorem test_decode_sub : decode 0b1000_0001_0010_0101#16 = .instr (.sub 1#4 2#4) := by decide
theorem test_decode_shr : decode 0b1000_0001_0010_0110#16 = .instr (.shr 1#4 2#4) := by decide
theorem test_decode_subn : decode 0b1000_0001_0010_0111#16 = .instr (.subn 1#4 2#4) := by decide
theorem test_decode_shl : decode 0b1000_0001_0010_1110#16 = .instr (.shl 1#4 2#4) := by decide
theorem test_decode_sneReg : decode 0b1001_0001_0010_0000#16 = .instr (.sneReg 1#4 2#4) := by decide
theorem test_decode_ldI : decode 0b1010_0011_0000_0001#16 = .instr (.ldI 0x301#12) := by decide
theorem test_decode_jpV0 : decode 0b1011_0011_0000_0001#16 = .instr (.jpV0 0x301#12) := by decide
theorem test_decode_rnd : decode 0b1100_0001_0000_1111#16 = .instr (.rnd 1#4 0x0F#8) := by decide
theorem test_decode_drw : decode 0b1101_0001_0010_1111#16 = .instr (.drw 1#4 2#4 15#4) := by decide
theorem test_decode_skp : decode 0b1110_0001_1001_1110#16 = .instr (.skp 1#4) := by decide
theorem test_decode_sknp : decode 0b1110_0001_1010_0001#16 = .instr (.sknp 1#4) := by decide
theorem test_decode_ldVxDt : decode 0b1111_0001_0000_0111#16 = .instr (.ldVxDt 1#4) := by decide
theorem test_decode_ldVxK : decode 0b1111_0011_0000_1010#16 = .instr (.ldVxK 3#4) := by decide
theorem test_decode_ldDtVx : decode 0b1111_0001_0001_0101#16 = .instr (.ldDtVx 1#4) := by decide
theorem test_decode_ldStVx : decode 0b1111_0001_0001_1000#16 = .instr (.ldStVx 1#4) := by decide
theorem test_decode_addI : decode 0b1111_0010_0001_1110#16 = .instr (.addI 2#4) := by decide
theorem test_decode_ldF : decode 0b1111_0010_0010_1001#16 = .instr (.ldF 2#4) := by decide
theorem test_decode_ldB : decode 0b1111_0010_0011_0011#16 = .instr (.ldB 2#4) := by decide
theorem test_decode_ldMemVx : decode 0b1111_0010_0101_0101#16 = .instr (.ldMemVx 2#4) := by decide
theorem test_decode_ldVxMem : decode 0b1111_0010_0110_0101#16 = .instr (.ldVxMem 2#4) := by decide

/-- The words of spec/95_test_vectors.md 2.1 that match no pattern (0xF000 among them: log entry 19). -/
theorem test_decode_unmatched :
    decode 0x5121#16 = .unmatched 0x5121#16 ∧ decode 0x8008#16 = .unmatched 0x8008#16 ∧
    decode 0x800F#16 = .unmatched 0x800F#16 ∧ decode 0x9001#16 = .unmatched 0x9001#16 ∧
    decode 0xE09F#16 = .unmatched 0xE09F#16 ∧ decode 0xF000#16 = .unmatched 0xF000#16 ∧
    decode 0xF075#16 = .unmatched 0xF075#16 := by decide

/-- 2.1: SYS beside CLS, a SUPER-CHIP word in its base meaning. -/
theorem test_decode_sys_neighbours :
    decode 0x0000#16 = .instr (.sys 0x000#12) ∧ decode 0x00E1#16 = .instr (.sys 0x0E1#12) ∧
    decode 0x00FF#16 = .instr (.sys 0x0FF#12) := by decide

/-- E3: the assembled program of the source, as the opcode table numbers its words. -/
theorem test_decodeTableWord : decodeTableWord 16 0x1204 = some (.jp 0x204#12) ∧
    decodeTableWord 16 0x5121 = none := by decide

/-! ## One step -/

/-- The reset state in a known timing mode, with a key array of the test's. -/
def base : State := { State.reset with accurate := false, clockHz := 600 }

/-- What a part of the next state is, if there is a next state. -/
def after {α : Type} (r : Result) (f : State → α) : Option α :=
  match r with
  | .next t => some (f t)
  | .fault _ => none
  | .refused _ => none

/-- The machine's step on a word placed at `pc`. -/
def stepWord (s : State) (w : Nat) : Result := step (s.withFetchWord 16 w)

/-- Two registers of the base state, VF too. -/
def regs (v1 v2 f : Byte) : State := ((base.writeV 1#4 v1).writeV 2#4 v2).writeV vf f

/-- The base state with these keys down. -/
def keys (l : List Nat) : State := { base with key := Vector.ofFn fun k : Fin 16 => l.contains k.val }

/-- V1, VF and pc after a step. -/
def v1fPc (r : Result) : Option (Byte × Byte × Addr) := after r fun t => (t.readV 1#4, t.readV vf, t.pc)

/-- C18 -/
theorem test_sys : after (stepWord base 0x0123) (·.pc) = some 0x202#12 := by decide
/-- C6 -/
theorem test_ret : after (stepWord { base with stack := [0x202#12], pc := 0x300#12 } 0x00EE)
    (fun t => (t.pc, t.stack)) = some (0x202#12, []) := by decide
/-- C7 -/
theorem test_ret_empty : after (stepWord { base with pc := 0x300#12 } 0x00EE)
    (fun t => (t.pc, t.stack)) = some (0x000#12, []) := by decide
/-- C1 -/
theorem test_jp : after (stepWord base 0x1234) (·.pc) = some 0x234#12 := by decide
/-- C4 -/
theorem test_call_wraps : after (stepWord { base with pc := 0xFFE#12 } 0x2300)
    (fun t => (t.pc, t.stack)) = some (0x300#12, [0x000#12]) := by decide
/-- C5 -/
theorem test_call_full : after (stepWord { base with stack := List.replicate 16 0x111#12 } 0x2300)
    (fun t => (t.pc, t.stack.length, t.fault)) = some (0x200#12, 16, some (.stackOverflow 0x200#12)) := by decide
/-- C8, C9 -/
theorem test_seByte : after (stepWord (base.writeV 3#4 0x10#8) 0x3310) (·.pc) = some 0x204#12 ∧
    after (stepWord (base.writeV 3#4 0x11#8) 0x3310) (·.pc) = some 0x202#12 := by decide
/-- C14 -/
theorem test_seByte_wraps : after (stepWord { base with pc := 0xFFC#12 } 0x3000) (·.pc) = some 0x000#12 := by decide
/-- C10, C11 -/
theorem test_sneByte : after (stepWord (base.writeV 3#4 0x11#8) 0x4310) (·.pc) = some 0x204#12 ∧
    after (stepWord (base.writeV 3#4 0x10#8) 0x4310) (·.pc) = some 0x202#12 := by decide
/-- C12 -/
theorem test_seReg : after (stepWord (regs 0x7F 0x7F 0) 0x5120) (·.pc) = some 0x204#12 := by decide
/-- C13 -/
theorem test_sneReg : after (stepWord (regs 0x7F 0x80 0) 0x9120) (·.pc) = some 0x204#12 := by decide
/-- C16 -/
theorem test_jpV0_wraps : after (stepWord (base.writeV 0#4 0xFF#8) 0xBFFF) (·.pc) = some 0x0FE#12 := by decide
/-- C17 -/
theorem test_jpV0_uses_v0 : after (stepWord (base.writeV 1#4 0x55#8) 0xB300) (·.pc) = some 0x300#12 := by decide

/-- A1 -/
theorem test_ldByte : v1fPc (stepWord base 0x61AB) = some (0xAB#8, 0x00#8, 0x202#12) := by decide
/-- A3 -/
theorem test_addByte : v1fPc (stepWord (regs 0x05 0 0x01) 0x71FF) = some (0x04#8, 0x01#8, 0x202#12) := by decide
/-- A4 -/
theorem test_ldReg : v1fPc (stepWord (regs 0x00 0x33 0) 0x8120) = some (0x33#8, 0x00#8, 0x202#12) := by decide
/-- A5 -/
theorem test_orReg : v1fPc (stepWord (regs 0x0F 0xF0 1) 0x8121) = some (0xFF#8, 0x01#8, 0x202#12) := by decide
/-- A6 -/
theorem test_andReg : v1fPc (stepWord (regs 0x3C 0x0F 1) 0x8122) = some (0x0C#8, 0x01#8, 0x202#12) := by decide
/-- A7 -/
theorem test_xorReg : v1fPc (stepWord (regs 0xFF 0x0F 1) 0x8123) = some (0xF0#8, 0x01#8, 0x202#12) := by decide
/-- A11 -/
theorem test_addReg : v1fPc (stepWord (regs 0x7F 0x80 1) 0x8124) = some (0xFF#8, 0x00#8, 0x202#12) := by decide
/-- A26: the flag is written last -/
theorem test_addReg_into_vf : v1fPc (stepWord (regs 0x80 0 0x80) 0x8F14) = some (0x80#8, 0x01#8, 0x202#12) := by decide
/-- A14: equal operands do not borrow -/
theorem test_sub_equal : v1fPc (stepWord (regs 0x10 0x10 0) 0x8125) = some (0x00#8, 0x01#8, 0x202#12) := by decide
/-- A15 -/
theorem test_sub_borrow : v1fPc (stepWord (regs 0x00 0x01 1) 0x8125) = some (0xFF#8, 0x00#8, 0x202#12) := by decide
/-- A20: V2 is not used -/
theorem test_shr : v1fPc (stepWord (regs 0x01 0xFF 0) 0x8126) = some (0x00#8, 0x01#8, 0x202#12) := by decide
/-- A17 -/
theorem test_subn : v1fPc (stepWord (regs 0x10 0x20 0) 0x8127) = some (0x10#8, 0x01#8, 0x202#12) := by decide
/-- A18 -/
theorem test_subn_borrow : v1fPc (stepWord (regs 0x20 0x10 1) 0x8127) = some (0xF0#8, 0x00#8, 0x202#12) := by decide
/-- A22 -/
theorem test_shl : v1fPc (stepWord (regs 0x81 0 0) 0x810E) = some (0x02#8, 0x01#8, 0x202#12) := by decide
/-- A25: with the mask 0x00 the result is 0x00 whatever byte is drawn -/
theorem test_rnd_masked : after (exec (.rnd 1#4 0x00#8) base) (·.readV 1#4) = some 0x00#8 := by
  simp [after, exec, execRnd, writeAndNext, State.nextInstr, State.setPc, State.writeV, State.readV]

/-- M1 -/
theorem test_ldI : after (stepWord base 0xA300) (·.i) = some 0x300#12 := by decide
/-- M4 -/
theorem test_addI_wraps : after (stepWord { regs 0 0xFF 1 with i := 0xF80#12 } 0xF21E)
    (fun t => (t.i, t.readV vf)) = some (0x07F#12, 0x01#8) := by decide
/-- M6 -/
theorem test_ldF : after (stepWord (base.writeV 0#4 0x0A#8) 0xF029) (·.i) = some 0x032#12 := by decide
/-- M9: the digit is not masked -/
theorem test_ldF_unmasked : after (stepWord (base.writeV 0#4 0xFF#8) 0xF029) (·.i) = some 0x4FB#12 := by decide
/-- M13: the last byte lands at 0x000, over the font -/
theorem test_ldB_wraps : after (stepWord { base.writeV 0#4 9#8 with i := 0xFFE#12 } 0xF033)
    (fun t => (Memory.read 0xFFE t.mem, Memory.read 0xFFF t.mem, Memory.read 0x000 t.mem, t.i)) =
    some (0#8, 0#8, 9#8, 0xFFE#12) := by decide
/-- E7 -/
theorem test_ldB : after (stepWord { base.writeV 0#4 254#8 with i := 0x300#12 } 0xF033)
    (fun t => (Memory.read 0x300 t.mem, Memory.read 0x301 t.mem, Memory.read 0x302 t.mem)) =
    some (2#8, 5#8, 4#8) := by decide
/-- M14 -/
theorem test_ldMemVx : after (stepWord { (regs 2 3 0).writeV 0#4 1#8 with i := 0x400#12 } 0xF255)
    (fun t => (Memory.read 0x400 t.mem, Memory.read 0x401 t.mem, Memory.read 0x402 t.mem, Memory.read 0x403 t.mem, t.i)) =
    some (1#8, 2#8, 3#8, 0#8, 0x400#12) := by decide
/-- M18: the font -/
theorem test_ldVxMem : after (stepWord base 0xF465)
    (fun t => (t.readV 0#4, t.readV 1#4, t.readV 2#4, t.readV 4#4, t.readV 5#4)) =
    some (0xF0#8, 0x90#8, 0x90#8, 0xF0#8, 0x00#8) := by decide

/-- K1 -/
theorem test_ldVxDt : v1fPc (stepWord { base with dt := 0x3C#8 } 0xF107) = some (0x3C#8, 0x00#8, 0x202#12) := by decide
/-- K2 -/
theorem test_ldDtVx : after (stepWord (regs 0x05 0 0) 0xF115) (·.dt) = some 0x05#8 := by decide
/-- K3 -/
theorem test_ldStVx : after (stepWord (regs 0x02 0 0) 0xF118) (·.st) = some 0x02#8 := by decide
/-- K5: the lowest key -/
theorem test_ldVxK : after (stepWord (keys [3, 9]) 0xF30A) (fun t => (t.readV 3#4, t.pc)) = some (3#8, 0x202#12) := by
  decide
/-- K6: no key, the step stalls -/
theorem test_ldVxK_stalls : after (stepWord (keys []) 0xF30A) (fun t => (t.readV 3#4, t.pc)) = some (0#8, 0x200#12) ∧
    stalls (decode 0xF30A#16) (keys []) = true := by decide
/-- K7, K8 -/
theorem test_skp : after (stepWord ((keys [7]).writeV 1#4 7#8) 0xE19E) (·.pc) = some 0x204#12 ∧
    after (stepWord ((keys []).writeV 1#4 7#8) 0xE19E) (·.pc) = some 0x202#12 := by decide
/-- K11 -/
theorem test_skp_out_of_range : after (stepWord (regs 0x10 0 0) 0xE19E) (fun t => (t.pc, t.fault)) =
    some (0x200#12, some (.keyIndexOutOfRange 0x10#8)) := by decide
/-- K9, K10 -/
theorem test_sknp : after (stepWord ((keys []).writeV 1#4 7#8) 0xE1A1) (·.pc) = some 0x204#12 ∧
    after (stepWord ((keys [7]).writeV 1#4 7#8) 0xE1A1) (·.pc) = some 0x202#12 := by decide

/-- Some pixels of a display. -/
def pixels (d : Display) (l : List (Nat × Nat)) : List Bool := l.map fun p => d.pixel p.1 p.2

/-- D9 -/
theorem test_cls : after (stepWord { regs 0 0 1 with disp := State.reset.disp.toggle 5 6 } 0x00E0)
    (fun t => (t.disp.pixel 5 6, t.readV vf)) = some (false, 0x01#8) := by decide
/-- D3: clipped at the right edge, not wrapped -/
theorem test_drw_clips : after (stepWord (regs 62 0 1) 0xD121)
    (fun t => (pixels t.disp [(61, 0), (62, 0), (63, 0), (0, 0), (1, 0), (0, 1), (1, 1)], t.readV vf)) =
    some ([false, true, true, false, false, false, false], 0x00#8) := by decide
/-- D7: a lit pixel goes off; I points at the byte 0x80, the second row of glyph C in the font (R42) -/
theorem test_drw_collides : after (stepWord { base with i := 0x03D#12, disp := State.reset.disp.toggle 0 0 } 0xD121)
    (fun t => (pixels t.disp [(0, 0), (1, 0)], t.readV vf)) = some ([false, false], 0x01#8) := by decide
/-- D10: the old VF is the x coordinate -/
theorem test_drw_reads_vf_first : after (stepWord { base.writeV vf 5#8 with i := 0x03D#12 } 0xDF21)
    (fun t => (pixels t.disp [(4, 0), (5, 0), (6, 0)], t.readV vf)) = some ([false, true, false], 0x00#8) := by decide

/-- E7: an unmatched word -/
theorem test_unmatched : after (stepWord base 0x5121) (·.pc) = some 0x202#12 := by decide

/-- As the host runs it: the first instruction after reset. -/
theorem test_first_after_reset : after (step (State.reset.withFetchWord 16 0x62AB)) (·.readV 2#4) = some 0xAB#8 := by
  decide

/-! ## Frames and the host's moves -/

/-- The base state running, at the start of a frame. -/
def running : State := { base with run := .running }

/-- T1 (the first frame's timers), B1: 500 instructions a second give 8 steps. -/
theorem test_frame_begins : after (step { running with dt := 3#8, clockHz := 500 }) (fun t => (t.dt, t.st, t.phase)) =
    some (2#8, 0#8, .batch 8) := by decide
/-- B2, B3: the batch sizes. -/
theorem test_batchSize : batchSize 59 = 0 ∧ batchSize 600 = 10 ∧ batchSize 60 = 1 ∧ batchSize 420 = 7 := by decide
/-- T3: the end of frame 1, with ST = 2 written in its batch. -/
theorem test_frame_ends : after (step { running with st := 2#8, phase := .batch 0 })
    (fun t => (t.audioOn, t.outputs.length, t.phase)) = some (true, 2, .frameStart) := by decide
/-- B5: a duration of a whole frame leaves no budget; B6: what is left is capped at the frame. -/
theorem test_replenish : replenish 0 = frameUs ∧ replenish (frameUs - 200) = frameUs := by
  unfold replenish frameUs; norm_num
/-- H3 -/
theorem test_setKey_refused : (running.hostOp (.setKey 16 true)).key = running.key := by decide
/-- H4 -/
theorem test_setClockRate_refused : (running.hostOp (.setClockRate 0)).clockHz = 600 := by decide
/-- H5 -/
theorem test_setTimingMode_resets : (fun t => (t.accurate, t.run, t.pc))
    (({ running with pc := 0x345#12 } : State).hostOp (.setTimingMode true)) = (true, .paused, 0x200#12) := by decide
/-- H2 -/
theorem test_load_refused : (base.hostLoad (List.replicate 3585 0#8)).rom = [] := by
  rw [State.hostLoad, if_neg (by rw [List.length_replicate]; decide)]; rfl

/-! ## Witnesses: for each obligation with hypotheses, inputs that meet them, clause by clause at the bounds -/

theorem witness_DecodeOfEncodeIsTheInstruction :
    (Instr.sys 0x0ED#12).wellFormed = true ∧ (Instr.sys 0xFFF#12).wellFormed = true ∧
    (Instr.drw 15#4 0#4 15#4).wellFormed = true := by decide

theorem witness_EncodeOfDecodeIsTheWord :
    decode 0xFFFF#16 = .unmatched 0xFFFF#16 ∧ decode 0xFF65#16 = .instr (.ldVxMem 15#4) := by decide

theorem witness_DecodeFollowsTheOpcodeTable :
    decode 0x00E1#16 = .instr (.sys 0x0E1#12) ∧ decode 0x8008#16 = .unmatched 0x8008#16 ∧
    Pattern.sys.fits 0x00E0#16 = true ∧ Pattern.cls.fits 0x00E0#16 = true ∧
    Pattern.sys.fits 0x00EE#16 = true ∧ Pattern.ret.fits 0x00EE#16 = true := by decide

/-- A block in an approximate batch with two steps left, about to run a word. -/
def midBatch (w : Nat) : State := { base.withFetchWord 16 w with phase := .batch 2, inputs := [] }

/-- A block in a cycle-accurate batch with a whole frame's budget, about to run a word. -/
def midTimed (w : Nat) : State :=
  { base.withFetchWord 16 w with accurate := true, phase := .timed, budget := frameUs, inputs := [none] }

theorem midBatch_live (w : Nat) : Live (midBatch w) ∧ NoMove (midBatch w) := ⟨⟨rfl, rfl⟩, .inl rfl⟩

theorem midTimed_live (w : Nat) : Live (midTimed w) ∧ NoMove (midTimed w) := ⟨⟨rfl, rfl⟩, .inr ⟨[], rfl⟩⟩

/-- Each of the four kinds of unmatched word, and a step that meets one. -/
theorem witness_UnmatchedWordsAreTheListedAndOnlyAdvancePc :
    (decode 0x500F#16 = .unmatched 0x500F#16 ∧ decode 0x9FF1#16 = .unmatched 0x9FF1#16) ∧
    (decode 0x8008#16 = .unmatched 0x8008#16 ∧ decode 0x8FFF#16 = .unmatched 0x8FFF#16) ∧
    decode 0xE09D#16 = .unmatched 0xE09D#16 ∧ decode 0xFF66#16 = .unmatched 0xFF66#16 ∧
    (Live (midBatch 0x5121) ∧ NoMove (midBatch 0x5121)) ∧ (midBatch 0x5121).phase = .batch (1 + 1) ∧
    decode (midBatch 0x5121).fetch = .unmatched (midBatch 0x5121).fetch := by
  exact ⟨by decide, by decide, by decide, by decide, midBatch_live _, rfl, by decide⟩

theorem witness_SysOnlyAdvancesPc : (0x0DF#12 : Addr) ≠ 0x0E0#12 ∧ (0x0DF#12 : Addr) ≠ 0x0EE#12 := by decide

theorem witness_RetPopsOrReturnsToZero :
    ({ base with stack := [0x202#12] } : State).stack = 0x202#12 :: [] ∧ base.stack = [] := by decide

theorem witness_CallPushesAndJumpsOrOverflows :
    ({ base with stack := List.replicate 15 0x202#12 } : State).stack.length < 16 ∧
    16 ≤ ({ base with stack := List.replicate 16 0x202#12 } : State).stack.length := by decide

theorem witness_RetReturnsAfterItsCall : ∃ s t u w : State, exec (.call 0x300#12) s = .next t ∧ u.stack = t.stack ∧
    exec .ret u = .next w :=
  ⟨base, _, { base with stack := [0x202#12] }, _, rfl, rfl, rfl⟩

/-- x and VF apart, and x = VF. -/
theorem witness_AddSetsCarry : (0xE#4 : Nibble) ≠ vf ∧ (0xF#4 : Nibble) = vf := by decide
theorem witness_SubtractionsSetNotBorrow : (0x0#4 : Nibble) ≠ vf := by decide
theorem witness_ShiftsMoveVxByOneBit : (0xE#4 : Nibble) ≠ vf := by decide

theorem witness_LdFPointsAtTheGlyph :
    ((regs 0x0F 0 0).readV 1#4).toNat ≤ 0x0F ∧ ∃ t, exec (.ldF 1#4) (regs 0x0F 0 0) = .next t ∧ t.i = 0x04B#12 :=
  ⟨by decide, _, rfl, rfl⟩

/-- The addresses on both sides of the top of memory, and an offset that wraps. -/
theorem witness_DataAddressesWrap :
    addr .fault 0xFFF = .ok 0xFFF ∧ addr .wrap 0x1000 = .ok 0x000 ∧
    addr .fault 0x1000 = .error (.addressOverflow 0x1000) ∧
    dataAddr { base with i := 0xFFF#12 } 1 0x000 := ⟨rfl, rfl, rfl, rfl⟩

theorem witness_LdBStoresDecimalDigits :
    base.mem.wf = true ∧ dataAddr { base with i := 0xFFE#12 } 0 0xFFE ∧
    dataAddr { base with i := 0xFFE#12 } 1 0xFFF ∧ dataAddr { base with i := 0xFFE#12 } 2 0x000 :=
  ⟨rfl, rfl, rfl, rfl⟩

theorem witness_LdMemStoresV0ToVx :
    base.mem.wf = true ∧ (0xF#4 : Nibble).toNat ≤ (0xF#4 : Nibble).toNat ∧
    dataAddr { base with i := 0xFF1#12 } 15 0x000 := ⟨rfl, by decide, rfl⟩

theorem witness_LdVxLoadsV0ToVx :
    (0x0#4 : Nibble).toNat ≤ (0x0#4 : Nibble).toNat ∧ dataAddr { base with i := 0xFFF#12 } 0 0xFFF := ⟨by decide, rfl⟩

theorem witness_StoreIsSeenByTheNextFetch : ∃ s t : State, s.mem.wf = true ∧ s.i = s.pc + 2#12 ∧
    1 ≤ (1#4 : Nibble).toNat ∧ exec (.ldMemVx 1#4) s = .next t :=
  ⟨{ base with i := 0x202#12 }, _, rfl, rfl, by decide, rfl⟩

theorem witness_CanonicalMemoriesThatReadAlikeAreEqual :
    Memory.wf [(0x000, 0x12#8), (0xFFF, 0x34#8)] = true ∧
    Memory.write 0xFFF 0x34#8 (Memory.write 0x000 0x12#8 []) = [(0x000, 0x12#8), (0xFFF, 0x34#8)] := by decide

theorem witness_KeyWaitTakesLowestKeyOrStalls :
    (keys [15]).key[(15 : Fin 16)] = true ∧ (∀ j : Fin 16, j < 15 → (keys [15]).key[j] = false) ∧
    (∀ k : Fin 16, (keys []).key[k] = false) := by decide

theorem witness_KeySkipsTestTheNamedKey :
    ((regs 0x0F 0 0).readV 1#4).toNat = (15 : Fin 16).val ∧ ((regs 0x10 0 0).readV 1#4).toNat > 0x0F := by decide

/-- A lit pixel that goes off (D7), a display with no lit pixel, and sprites that start just off the screen (D5) or have
no rows (D6). -/
theorem witness_DrwXorsTheClippedSprite :
    (∃ s t : State, exec (.drw 1#4 2#4 1#4) s = .next t ∧ s.disp.pixel 0 0 = true ∧ t.disp.pixel 0 0 = false) ∧
    (∀ px py, base.disp.pixel px py = false) ∧
    64 ≤ ((regs 64 32 0).readV 1#4).toNat ∧ 32 ≤ ((regs 64 32 0).readV 2#4).toNat := by
  refine ⟨⟨{ base with i := 0x03D#12, disp := State.reset.disp.toggle 0 0 }, _, rfl, ?_, ?_⟩, ?_, ?_, ?_⟩
  · decide
  · decide
  · exact Display.pixel_clear
  · decide
  · decide

theorem witness_DrawingTwiceRestoresTheDisplay : (1#4 : Nibble) ≠ vf ∧ (2#4 : Nibble) ≠ vf ∧
    after (exec (.drw 1#4 2#4 5#4) base) (fun t => (base.disp.pixel 0 0, t.disp.pixel 0 0,
      after (exec (.drw 1#4 2#4 5#4) t) fun u => u.readV vf)) = some (false, true, some 0x01#8) := by decide

/-- VF changed as a flag and as a destination. -/
theorem witness_VfIsWrittenOnlyAsFlagOrDestination :
    after (exec (.addReg 1#4 2#4) (regs 0xFF 1 0)) (·.readV vf) = some 0x01#8 ∧ (regs 0xFF 1 0).readV vf = 0x00#8 ∧
    after (exec (.ldByte 15#4 0x77#8) base) (·.readV vf) = some 0x77#8 ∧ base.readV vf = 0x00#8 := by decide

/-- Each part changed by an instruction that may write it. -/
theorem witness_OnlyTheNamedInstructionsWriteEachPart :
    after (exec (.ldI 0x300#12) base) (·.i) = some 0x300#12 ∧
    after (exec (.call 0x300#12) base) (·.stack) = some [0x202#12] ∧
    after (exec (.ldDtVx 1#4) (regs 5 0 0)) (·.dt) = some 5#8 ∧
    after (exec (.ldStVx 1#4) (regs 5 0 0)) (·.st) = some 5#8 ∧
    after (exec (.ldB 1#4) { base with i := 0x300#12, dt := 0#8, v := (regs 254 0 0).v }) (·.mem.length) = some 3 ∧
    after (exec (.drw 1#4 2#4 5#4) base) (·.disp.pixel 0 0) = some true ∧
    after (exec (.rnd 1#4 0x0F#8) base) (·.draws) = some 1 := by decide

theorem witness_NoInstructionReadsOrWritesControlState :
    SameReadable base { base with st := 9#8, clockHz := 1, rom := [1#8], audioOn := true } ∧
    (∃ t, exec .cls base = .next t) ∧ (∃ t, exec (.ldStVx 1#4) base = .next t) ∧
    exec (.skp 1#4) (regs 0x10 0 0) = .fault (.keyIndexOutOfRange 0x10#8) :=
  ⟨⟨rfl, rfl, rfl, rfl, rfl, rfl, rfl, rfl⟩, ⟨_, rfl⟩, ⟨_, rfl⟩, rfl⟩

/-- A block about to run SKP V1 with V1 = 0x10, in either batch. -/
def midBatchFault : State := { midBatch 0xE19E with v := (regs 0x10 0 0).v }
def midTimedFault : State := { midTimed 0xE19E with v := (regs 0x10 0 0).v }

/-- The next state, and the fault. -/
theorem witness_StepRunsTheDecodedInstruction :
    ((Live (midBatch 0x1234) ∧ NoMove (midBatch 0x1234)) ∧ (midBatch 0x1234).phase = .batch (1 + 1) ∧
      decodeBytes (Memory.read (midBatch 0x1234).pc.toNat (midBatch 0x1234).mem)
        (Memory.read ((midBatch 0x1234).pc + 1#12).toNat (midBatch 0x1234).mem) = .instr (.jp 0x234#12) ∧
      ∃ t, exec (.jp 0x234#12) (afterBoundary (midBatch 0x1234)) = .next t) ∧
    ((Live midBatchFault ∧ NoMove midBatchFault) ∧ midBatchFault.phase = .batch (1 + 1) ∧
      decodeBytes (Memory.read midBatchFault.pc.toNat midBatchFault.mem)
        (Memory.read (midBatchFault.pc + 1#12).toNat midBatchFault.mem) = .instr (.skp 1#4) ∧
      exec (.skp 1#4) (afterBoundary midBatchFault) = .fault (.keyIndexOutOfRange 0x10#8)) :=
  ⟨⟨midBatch_live _, rfl, by decide, _, rfl⟩, ⟨⟨rfl, rfl⟩, .inl rfl⟩, rfl, by decide, rfl⟩

/-- No budget; a whole budget and a step that goes on, one that stalls, one that faults. -/
theorem witness_AccurateBatchRunsWhatFitsTheBudget :
    (∃ s, (Live s ∧ NoMove s) ∧ s.phase = .timed ∧ s.budget < durationOf (decode s.fetch)) ∧
    (∃ s t, (Live s ∧ NoMove s) ∧ s.phase = .timed ∧ durationOf (decode s.fetch) ≤ s.budget ∧
      execDecoded (decode s.fetch) (afterBoundary s) = .next t ∧ stalls (decode s.fetch) s = false) ∧
    (∃ s t, (Live s ∧ NoMove s) ∧ s.phase = .timed ∧ durationOf (decode s.fetch) ≤ s.budget ∧
      execDecoded (decode s.fetch) (afterBoundary s) = .next t ∧ stalls (decode s.fetch) s = true) ∧
    (∃ s, (Live s ∧ NoMove s) ∧ s.phase = .timed ∧ durationOf (decode s.fetch) ≤ s.budget ∧
      execDecoded (decode s.fetch) (afterBoundary s) = .fault (.keyIndexOutOfRange 0x10#8)) := by
  have h1 : decode (midTimed 0x1234).fetch = .instr (.jp 0x234#12) := by decide
  have h2 : decode (midTimed 0xF00A).fetch = .instr (.ldVxK 0#4) := by decide
  have h3 : decode midTimedFault.fetch = .instr (.skp 1#4) := by decide
  refine ⟨⟨{ midTimed 0x1234 with budget := 0 }, ⟨⟨rfl, rfl⟩, .inr ⟨[], rfl⟩⟩, rfl, durationOf_pos _⟩,
    ⟨midTimed 0x1234, (afterBoundary (midTimed 0x1234)).setPc 0x234#12, midTimed_live _, rfl, ?_, ?_, ?_⟩,
    ⟨midTimed 0xF00A, afterBoundary (midTimed 0xF00A), midTimed_live _, rfl, ?_, ?_, ?_⟩,
    ⟨midTimedFault, ⟨⟨rfl, rfl⟩, .inr ⟨[], rfl⟩⟩, rfl, ?_, ?_⟩⟩
  · rw [h1]; exact dur_le .jp
  · rw [h1]; rfl
  · rw [h1]; rfl
  · rw [h2]; exact dur_le .ldVxK
  · rw [h2]; rfl
  · rw [h2]; decide
  · rw [h3]; exact dur_le .skp
  · rw [h3]; rfl

theorem witness_DurationsAreByPatternAndFitAFrame :
    (Instr.jp 0x200#12).pattern = (Instr.jp 0xFFF#12).pattern := rfl

/-- A faulted block whose host makes no move, and one whose host resets it, so that the step goes on. -/
theorem witness_AMarkedFaultStopsTheBlock :
    ({ running with fault := some (.stackOverflow 0x200#12) } : State).fault = some (.stackOverflow 0x200#12) ∧
    NoMove { running with fault := some (.stackOverflow 0x200#12) } ∧
    ∃ t, step { running with fault := some (.stackOverflow 0x200#12), inputs := [some .reset] } = .next t :=
  ⟨rfl, .inl rfl, _, rfl⟩

/-- In either timing mode. -/
theorem witness_FrameBeginsWithTimersAndBatch :
    Live running ∧ NoMove running ∧ running.phase = .frameStart ∧ running.accurate = false ∧
    Live { running with accurate := true } ∧ NoMove { running with accurate := true } :=
  ⟨⟨rfl, rfl⟩, .inl rfl, rfl, rfl, ⟨rfl, rfl⟩, .inl rfl⟩

/-- The end of an approximate batch, with the sound to be turned on. -/
def frameEndsLoud : State := { running with phase := .batch 0, st := 1#8 }

/-- The end of a cycle-accurate batch, with the sound state as it is to be. -/
def frameEndsQuiet : State := { running with accurate := true, phase := .frameEnd }

/-- A cycle-accurate batch with no budget left, so that the next instruction does not fit. -/
def frameEndsUnfit : State := { running with accurate := true, phase := .timed, budget := 0 }

theorem witness_FrameEndsWithDisplayAndSound :
    (Live frameEndsLoud ∧ NoMove frameEndsLoud ∧ frameEndsLoud.phase = .batch 0 ∧
      frameEndsLoud.audioOn ≠ decide (frameEndsLoud.st.toNat > 0)) ∧
    (Live frameEndsQuiet ∧ NoMove frameEndsQuiet ∧ frameEndsQuiet.phase = .frameEnd ∧
      frameEndsQuiet.audioOn = decide (frameEndsQuiet.st.toNat > 0)) ∧
    (Live frameEndsUnfit ∧ NoMove frameEndsUnfit ∧ frameEndsUnfit.phase = .timed ∧
      frameEndsUnfit.budget < durationOf (decode frameEndsUnfit.fetch)) :=
  ⟨⟨⟨rfl, rfl⟩, .inl rfl, rfl, by decide⟩, ⟨⟨rfl, rfl⟩, .inl rfl, rfl, rfl⟩,
    ⟨⟨rfl, rfl⟩, .inl rfl, rfl, durationOf_pos _⟩⟩

theorem witness_ApproximateFrameTakesKSteps :
    Live running ∧ running.inputs = [] ∧ running.phase = .frameStart ∧ running.accurate = false :=
  ⟨⟨rfl, rfl⟩, rfl, rfl, rfl⟩

/-- The invariant of a concrete running state in the cycle-accurate mode. -/
theorem witness_FrameExecutesAtMostItsBudget :
    Inv { running with accurate := true } ∧ ({ running with accurate := true } : State).phase = .frameStart := by
  refine ⟨⟨rfl, by decide, by decide, by decide, le_refl _, frameUs_pos.le, fun h => absurd rfl h, fun _ => rfl, ?_⟩, rfl⟩
  intro n h; cases h

theorem witness_OnlyTheHostChangesKeysModeAndProgram : NoMove running ∧ ∃ t, step running = .next t := ⟨.inl rfl, _, rfl⟩

/-- Unloaded and Paused. -/
theorem witness_NothingHappensWhileNotRunning :
    (base.fault = none ∧ base.run ≠ .running ∧ NoMove base) ∧ State.constructed.fault = none ∧
    State.constructed.run ≠ .running ∧ NoMove State.constructed :=
  ⟨⟨rfl, by decide, .inl rfl⟩, rfl, by decide, .inl rfl⟩

/-- C2's word at 0x200. -/
theorem witness_HaltIdiomKeepsTheState :
    Live (midBatch 0x1200) ∧ (midBatch 0x1200).inputs = [] ∧
    (midBatch 0x1200).fetch = wordNnn 0x1#4 (midBatch 0x1200).pc := ⟨⟨rfl, rfl⟩, rfl, by decide⟩

theorem witness_HostMoveTakesEffectBetweenSteps :
    ({ running with inputs := [some .stop] } : State).inputs = some .stop :: [] := rfl

/-- A program's first and last byte, the font's bounds, and the cells around a program. -/
theorem witness_HostResetLeavesTheResetState :
    ({ base with rom := [1#8, 2#8] } : State).rom.length ≤ 3584 ∧ 1 < [1#8, 2#8].length ∧ 79 < 80 ∧
    80 ≤ 0x1FF ∧ ¬ (0x200 ≤ 0x1FF ∧ 0x1FF < 0x200 + [1#8, 2#8].length) ∧
    ¬ (0x200 ≤ 0x202 ∧ 0x202 < 0x200 + [1#8, 2#8].length) := by decide

/-- H1, H2: the longest program, and one byte more. -/
theorem witness_LoadStoresTheProgramOrIsRefused :
    (List.replicate 3584 0x00#8).length ≤ 3584 ∧ 3584 < (List.replicate 3585 0x00#8).length := by
  simp only [List.length_replicate]; decide

theorem witness_PauseAndStopMoveTheLifeCycle :
    running.run = .running ∧ base.run = .paused ∧ base.run ≠ .running ∧ State.constructed.run ≠ .paused := by decide

theorem witness_SettingsAndKeysOfTheHost :
    State.constructed.run = .unloaded ∧ running.run ≠ .unloaded ∧ (0 : Int) < 1 ∧ (0 : Int) ≤ 0 ∧
    ((-1 : Int) < 0 ∨ (15 : Int) < -1) ∧ ((16 : Int) < 0 ∨ (15 : Int) < 16) := by decide

theorem witness_BootBringsAProgramToRun : (0 : Int) < 600 ∧ [0x12#8, 0x00#8].length ≤ 3584 := by decide

theorem witness_WithFetchWordRunsTheWord :
    decodeTableWord 16 0x1234 = some (.jp 0x234#12) ∧ base.mem.wf = true ∧
    ∃ t, exec (.jp 0x234#12) (afterBoundary (base.withFetchWord 16 0x1234)) = .next t := by
  exact ⟨by decide, rfl, _, rfl⟩

/-- A running state with the invariant, from which a step goes on. -/
theorem witness_StepKeepsTheInvariant :
    Inv { running with accurate := true } ∧ ∃ t, step { running with accurate := true } = .next t :=
  ⟨witness_FrameExecutesAtMostItsBudget.1, _, rfl⟩

end Sys2Proof.Tests
end

section
/-! PROOFS. What the host's `reset()` leaves (spec/70_reset_and_hazards.md R124): memory after a reset, byte by byte
(R43), and the whole next state as one record (R32). -/

namespace Sys2Proof.Machine

/-! ## What memory reads as with no program (R43) -/

theorem font_length : font.length = 80 := by decide

/-- Below its length the font gives every byte, so the default of `getD` is never taken. -/
theorem Memory.resetByte_of_font {a : Nat} (h : a < 80) : font[a]? = some (Memory.resetByte a) := by
  have ha : a < font.length := by rw [font_length]; exact h
  simp [Memory.resetByte, fontBase, ha]

theorem Memory.resetByte_of_ge {a : Nat} (h : 80 ≤ a) : Memory.resetByte a = 0x00#8 := by
  have ha : font.length ≤ a := by rw [font_length]; exact h
  simp [Memory.resetByte, fontBase, ha]

/-! ## What memory reads as with a program stored (R43, R124) -/

/-- The program covers the addresses from 0x200 as far as it reaches; every other byte has its reset value. -/
theorem Memory.read_ofRom {rom : List Byte} (h : rom.length ≤ maxRom) (a : Nat) :
    Memory.read a (Memory.ofRom rom) =
      if programOrigin ≤ a then (rom[a - programOrigin]?).getD (Memory.resetByte a) else Memory.resetByte a :=
  Memory.read_writeList Memory.wf_nil rom programOrigin a (by unfold maxRom at h; unfold programOrigin memSize; omega)

theorem Memory.read_ofRom_program {rom : List Byte} (h : rom.length ≤ maxRom) {j : Nat} (hj : j < rom.length) :
    Memory.read (programOrigin + j) (Memory.ofRom rom) = rom[j] := by
  rw [Memory.read_ofRom h, if_pos (Nat.le_add_right _ _)]
  simp [hj]

theorem Memory.read_ofRom_outside {rom : List Byte} (h : rom.length ≤ maxRom) {a : Nat}
    (ha : ¬ (programOrigin ≤ a ∧ a < programOrigin + rom.length)) :
    Memory.read a (Memory.ofRom rom) = Memory.resetByte a := by
  rw [Memory.read_ofRom h]
  split
  · next hle => rw [List.getElem?_eq_none (by omega), Option.getD_none]
  · rfl

/-! ## The state after `reset()` (R32, R124) -/

/-- What `reset()` writes, as one update of the state before it. -/
theorem State.hostReset_eq (s : State) :
    s.hostReset =
      { s with
        v := Vector.replicate 16 0x00#8
        i := 0x000#12
        dt := 0x00#8
        st := 0x00#8
        stack := []
        pc := 0x200#12
        mem := Memory.ofRom s.rom
        disp := Display.clear
        key := Vector.replicate 16 false
        budget := 0
        run := .paused
        phase := .frameStart
        audioOn := false
        outputs := if s.audioOn = true then .audioStateChange false :: s.outputs else s.outputs } := by
  rw [State.hostReset, State.audioOff_eq]
  rfl

theorem State.readV_of_v_replicate {s : State} {b : Byte} (h : s.v = Vector.replicate 16 b) (x : Nibble) :
    s.readV x = b := by
  simp [State.readV, h]

/-- Settles O51: the fields are those of `State.hostReset_eq`, and memory is read back in its three ranges. -/
theorem hostResetLeavesTheResetState : Obligations.HostResetLeavesTheResetState := by
  intro s hrom
  rw [show s.hostOp .reset = s.hostReset from rfl, State.hostReset_eq]
  have hprogram : ∀ j (h : j < s.rom.length), Memory.read (0x200 + j) (Memory.ofRom s.rom) = s.rom[j] :=
    fun _ hj => Memory.read_ofRom_program hrom hj
  have hfont : ∀ a, a < 80 → font[a]? = some (Memory.read a (Memory.ofRom s.rom)) := fun a ha => by
    rw [Memory.read_ofRom_outside hrom (by unfold programOrigin; omega)]
    exact Memory.resetByte_of_font ha
  have hzero : ∀ a, 80 ≤ a → a < 4096 → ¬ (0x200 ≤ a ∧ a < 0x200 + s.rom.length) →
      Memory.read a (Memory.ofRom s.rom) = 0x00#8 := fun a ha _ hout =>
    (Memory.read_ofRom_outside hrom hout).trans (Memory.resetByte_of_ge ha)
  have hkeys : ∀ k : Fin 16, (Vector.replicate 16 false)[k] = false := fun k => by simp
  exact ⟨State.readV_of_v_replicate rfl, rfl, rfl, rfl, rfl, rfl, hprogram, hfont, hzero,
    fun px py _ _ => Display.pixel_clear px py, hkeys, rfl, rfl, rfl, rfl, rfl, rfl, rfl, rfl⟩

end Sys2Proof.Machine
end

section
/-! PROOFS. The fetch, with its second address taken modulo 4096 (spec/20_memory.md R37, R38). -/

namespace Sys2Proof.Machine

/-- The byte after the one at 0xFFF is the one at 0x000: the 12-bit increment is the increment modulo 4096. -/
theorem toNat_addr_succ (a : Addr) : (a + 1#12).toNat = (a.toNat + 1) % 4096 :=
  BitVec.toNat_add a 1#12

/-- Settles O26: the fetched word is its two bytes, the first one high, and the second address is
`toNat_addr_succ`'s. -/
theorem fetchIsBigEndianAndWraps : Obligations.FetchIsBigEndianAndWraps := by
  intro s
  rw [State.fetch, toNat_append_eq, toNat_addr_succ]
  rfl

end Sys2Proof.Machine
end

section
/-! PROOFS. The decoder and the opcode table (spec/30_encoding.md R49 to R58): decoding inverts encoding, what a word
decodes to lays the word out again, and a word that fits a row is the word of an instruction of that row. -/

namespace Sys2Proof

open Sys2Proof.Laws

/-! ## A word laid out again from its fields, some of them known -/

section
variable {w : Word} {op : Nibble}

theorem wordNnn_of_fieldOp (hop : fieldOp w = op) : wordNnn op (fieldNnn w) = w :=
  hop ▸ wordNnn_fields w

theorem wordXkk_of_fields {kk : Byte} (hop : fieldOp w = op) (hkk : fieldKk w = kk) :
    wordXkk op (fieldX w) kk = w :=
  hop ▸ hkk ▸ wordXkk_fields w

theorem wordXyn_of_fields {n : Nibble} (hop : fieldOp w = op) (hn : fieldN w = n) :
    wordXyn op (fieldX w) (fieldY w) n = w :=
  hop ▸ hn ▸ wordXyn_fields w

theorem wordNnn_eq_iff {nnn : Addr} (hop : fieldOp w = op) : w = wordNnn op nnn ↔ fieldNnn w = nnn :=
  ⟨fun h => by simp [h], fun h => h ▸ (wordNnn_of_fieldOp hop).symm⟩

end

/-! ## Decoding inverts encoding (R53) -/

/-- The three ways on from the major opcode 0, told apart by `nnn` alone. -/
theorem decode0_wordNnn (nnn : Addr) :
    decode0 (wordNnn 0x0#4 nnn) =
      if nnn = 0x0E0#12 then .instr .cls else if nnn = 0x0EE#12 then .instr .ret else .instr (.sys nnn) := by
  have heq (nnn' : Addr) : wordNnn 0x0#4 nnn = wordNnn 0x0#4 nnn' ↔ nnn = nnn' := by
    rw [wordNnn_eq_iff (fieldOp_wordNnn _ _), fieldNnn_wordNnn]
  simp only [decode0, show 0x00E0#16 = wordNnn 0x0#4 0x0E0#12 from rfl,
    show 0x00EE#16 = wordNnn 0x0#4 0x0EE#12 from rfl, heq, fieldNnn_wordNnn]

/-- The ill-formed `SYS` terms apart, no operand bit of an encoding is lost: the fields of the word are the operands. -/
theorem decode_encode (i : Instr) (h : i.wellFormed = true) : decode (encode i) = .instr i := by
  cases i with
  | sys nnn =>
    obtain ⟨hcls, hret⟩ : nnn ≠ 0x0E0#12 ∧ nnn ≠ 0x0EE#12 := by simpa [Instr.wellFormed, sysOperandOk] using h
    simp [encode, decode, decode0_wordNnn, hcls, hret]
  | cls | ret => rfl
  | _ => simp [encode, decode, decode8, decodeE, decodeF]

theorem eq_sys_of_not_wellFormed {i : Instr} (h : ¬ i.wellFormed = true) :
    i = .sys 0x0E0#12 ∨ i = .sys 0x0EE#12 := by
  cases i with
  | sys nnn => simpa [Instr.wellFormed, sysOperandOk, Classical.or_iff_not_imp_left] using h
  | _ => exact absurd rfl h

/-! ## What a word decodes to -/

/-- What a decoded word says of the word: an instruction is well formed and encodes to it, and an unmatched word is
the word itself. -/
def Decoded.Denotes (w : Word) : Decoded → Prop
  | .instr i => encode i = w ∧ i.wellFormed = true
  | .unmatched u => u = w

section
variable {w : Word}

theorem decode0_denotes (hop : fieldOp w = 0x0#4) : (decode0 w).Denotes w := by
  unfold decode0
  refine iteInduction (fun hcls => ⟨hcls.symm, rfl⟩) fun hcls => ?_
  refine iteInduction (fun hret => ⟨hret.symm, rfl⟩) fun hret => ⟨wordNnn_of_fieldOp hop, ?_⟩
  have hcls : fieldNnn w ≠ 0x0E0#12 := mt (wordNnn_eq_iff hop).mpr hcls
  have hret : fieldNnn w ≠ 0x0EE#12 := mt (wordNnn_eq_iff hop).mpr hret
  simpa [Instr.wellFormed, sysOperandOk] using ⟨hcls, hret⟩

theorem decode8_denotes (hop : fieldOp w = 0x8#4) : (decode8 w).Denotes w := by
  unfold decode8
  split_ifs
  case neg => rfl
  all_goals exact ⟨wordXyn_of_fields hop ‹_›, rfl⟩

theorem decodeE_denotes (hop : fieldOp w = 0xE#4) : (decodeE w).Denotes w := by
  unfold decodeE
  split_ifs
  case neg => rfl
  all_goals exact ⟨wordXkk_of_fields hop ‹_›, rfl⟩

theorem decodeF_denotes (hop : fieldOp w = 0xF#4) : (decodeF w).Denotes w := by
  unfold decodeF
  split_ifs
  case neg => rfl
  all_goals exact ⟨wordXkk_of_fields hop ‹_›, rfl⟩

end

theorem decode_denotes (w : Word) : (decode w).Denotes w := by
  unfold decode
  refine iteInduction decode0_denotes fun h0 => ?_
  refine iteInduction (fun h1 => ⟨wordNnn_of_fieldOp h1, rfl⟩) fun h1 => ?_
  refine iteInduction (fun h2 => ⟨wordNnn_of_fieldOp h2, rfl⟩) fun h2 => ?_
  refine iteInduction (fun h3 => ⟨wordXkk_of_fields h3 rfl, rfl⟩) fun h3 => ?_
  refine iteInduction (fun h4 => ⟨wordXkk_of_fields h4 rfl, rfl⟩) fun h4 => ?_
  refine iteInduction (fun h5 => iteInduction (fun hn => ⟨wordXyn_of_fields h5 hn, rfl⟩) fun _ => rfl) fun h5 => ?_
  refine iteInduction (fun h6 => ⟨wordXkk_of_fields h6 rfl, rfl⟩) fun h6 => ?_
  refine iteInduction (fun h7 => ⟨wordXkk_of_fields h7 rfl, rfl⟩) fun h7 => ?_
  refine iteInduction decode8_denotes fun h8 => ?_
  refine iteInduction (fun h9 => iteInduction (fun hn => ⟨wordXyn_of_fields h9 hn, rfl⟩) fun _ => rfl) fun h9 => ?_
  refine iteInduction (fun hA => ⟨wordNnn_of_fieldOp hA, rfl⟩) fun hA => ?_
  refine iteInduction (fun hB => ⟨wordNnn_of_fieldOp hB, rfl⟩) fun hB => ?_
  refine iteInduction (fun hC => ⟨wordXkk_of_fields hC rfl, rfl⟩) fun hC => ?_
  refine iteInduction (fun hD => ⟨wordXyn_of_fields hD rfl, rfl⟩) fun hD => ?_
  refine iteInduction decodeE_denotes fun hE => decodeF_denotes ?_
  bv_omega

theorem encode_of_decode {w : Word} {i : Instr} (h : decode w = .instr i) : encode i = w ∧ i.wellFormed = true := by
  have hw := decode_denotes w
  rwa [h] at hw

theorem eq_of_decode_unmatched {w u : Word} (h : decode w = .unmatched u) : u = w := by
  have hw := decode_denotes w
  rwa [h] at hw

/-! ## The rows of R52, and the instructions whose words fit them -/

theorem encode_fits : ∀ i : Instr, i.pattern.fits (encode i) = true
  | .sys nnn => EncodeRow.sys nnn
  | .cls => EncodeRow.cls
  | .ret => EncodeRow.ret
  | .jp nnn => EncodeRow.jp nnn
  | .call nnn => EncodeRow.call nnn
  | .seByte x kk => EncodeRow.seByte x kk
  | .sneByte x kk => EncodeRow.sneByte x kk
  | .seReg x y => EncodeRow.seReg x y
  | .ldByte x kk => EncodeRow.ldByte x kk
  | .addByte x kk => EncodeRow.addByte x kk
  | .ldReg x y => EncodeRow.ldReg x y
  | .orReg x y => EncodeRow.orReg x y
  | .andReg x y => EncodeRow.andReg x y
  | .xorReg x y => EncodeRow.xorReg x y
  | .addReg x y => EncodeRow.addReg x y
  | .sub x y => EncodeRow.sub x y
  | .shr x y => EncodeRow.shr x y
  | .subn x y => EncodeRow.subn x y
  | .shl x y => EncodeRow.shl x y
  | .sneReg x y => EncodeRow.sneReg x y
  | .ldI nnn => EncodeRow.ldI nnn
  | .jpV0 nnn => EncodeRow.jpV0 nnn
  | .rnd x kk => EncodeRow.rnd x kk
  | .drw x y n => EncodeRow.drw x y n
  | .skp x => EncodeRow.skp x
  | .sknp x => EncodeRow.sknp x
  | .ldVxDt x => EncodeRow.ldVxDt x
  | .ldVxK x => EncodeRow.ldVxK x
  | .ldDtVx x => EncodeRow.ldDtVx x
  | .ldStVx x => EncodeRow.ldStVx x
  | .addI x => EncodeRow.addI x
  | .ldF x => EncodeRow.ldF x
  | .ldB x => EncodeRow.ldB x
  | .ldMemVx x => EncodeRow.ldMemVx x
  | .ldVxMem x => EncodeRow.ldVxMem x

section
variable {p : Pattern} {w : Word} {op : Nibble}

theorem eq_value_of_fits (hm : p.mask = 0xFFFF#16) (h : p.fits w = true) : w = p.value := by
  have hw : w &&& 0xFFFF#16 = w := BitVec.and_allOnes
  rwa [Pattern.fits, beq_iff_eq, hm, hw] at h

/-- A row that fixes the major opcode only. -/
theorem fieldOp_of_fits (hm : p.mask = wordNnn 0xF#4 0x000#12) (hv : p.value = wordNnn op 0x000#12)
    (h : p.fits w = true) : fieldOp w = op := by
  have hop : fieldOp w &&& 0xF#4 = fieldOp w := BitVec.and_allOnes
  rw [Pattern.fits, beq_iff_eq, hm, hv, ← wordNnn_fields w, mask_wordNnn, hop] at h
  simpa using congrArg fieldOp h

/-- A row that fixes the low byte as well. -/
theorem wordXkk_of_fits {ff : Byte} (hm : p.mask = wordXkk 0xF#4 0x0#4 0xFF#8)
    (hv : p.value = wordXkk op 0x0#4 ff) (h : p.fits w = true) : wordXkk op (fieldX w) ff = w := by
  have hop : fieldOp w &&& 0xF#4 = fieldOp w := BitVec.and_allOnes
  have hkk : fieldKk w &&& 0xFF#8 = fieldKk w := BitVec.and_allOnes
  rw [Pattern.fits, beq_iff_eq, hm, hv, ← wordXkk_fields w, mask_wordXkk, hop, hkk] at h
  exact wordXkk_of_fields (by simpa using congrArg fieldOp h) (by simpa using congrArg fieldKk h)

/-- A row that fixes the low nibble as well. -/
theorem wordXyn_of_fits {n : Nibble} (hm : p.mask = wordXyn 0xF#4 0x0#4 0x0#4 0xF#4)
    (hv : p.value = wordXyn op 0x0#4 0x0#4 n) (h : p.fits w = true) :
    wordXyn op (fieldX w) (fieldY w) n = w := by
  have hop : fieldOp w &&& 0xF#4 = fieldOp w := BitVec.and_allOnes
  have hn : fieldN w &&& 0xF#4 = fieldN w := BitVec.and_allOnes
  rw [Pattern.fits, beq_iff_eq, hm, hv, ← wordXyn_fields w, mask_wordXyn, hop, hn] at h
  exact wordXyn_of_fields (by simpa using congrArg fieldOp h) (by simpa using congrArg fieldN h)

end

theorem exists_encode_of_fits {w : Word} :
    ∀ {p : Pattern}, p.fits w = true → ∃ i : Instr, i.pattern = p ∧ encode i = w
  | .sys, h => ⟨.sys (fieldNnn w), rfl, wordNnn_of_fieldOp (fieldOp_of_fits rfl rfl h)⟩
  | .cls, h => ⟨.cls, rfl, (eq_value_of_fits rfl h).symm⟩
  | .ret, h => ⟨.ret, rfl, (eq_value_of_fits rfl h).symm⟩
  | .jp, h => ⟨.jp (fieldNnn w), rfl, wordNnn_of_fieldOp (fieldOp_of_fits rfl rfl h)⟩
  | .call, h => ⟨.call (fieldNnn w), rfl, wordNnn_of_fieldOp (fieldOp_of_fits rfl rfl h)⟩
  | .seByte, h => ⟨.seByte (fieldX w) (fieldKk w), rfl, wordXkk_of_fields (fieldOp_of_fits rfl rfl h) rfl⟩
  | .sneByte, h => ⟨.sneByte (fieldX w) (fieldKk w), rfl, wordXkk_of_fields (fieldOp_of_fits rfl rfl h) rfl⟩
  | .seReg, h => ⟨.seReg (fieldX w) (fieldY w), rfl, wordXyn_of_fits rfl rfl h⟩
  | .ldByte, h => ⟨.ldByte (fieldX w) (fieldKk w), rfl, wordXkk_of_fields (fieldOp_of_fits rfl rfl h) rfl⟩
  | .addByte, h => ⟨.addByte (fieldX w) (fieldKk w), rfl, wordXkk_of_fields (fieldOp_of_fits rfl rfl h) rfl⟩
  | .ldReg, h => ⟨.ldReg (fieldX w) (fieldY w), rfl, wordXyn_of_fits rfl rfl h⟩
  | .orReg, h => ⟨.orReg (fieldX w) (fieldY w), rfl, wordXyn_of_fits rfl rfl h⟩
  | .andReg, h => ⟨.andReg (fieldX w) (fieldY w), rfl, wordXyn_of_fits rfl rfl h⟩
  | .xorReg, h => ⟨.xorReg (fieldX w) (fieldY w), rfl, wordXyn_of_fits rfl rfl h⟩
  | .addReg, h => ⟨.addReg (fieldX w) (fieldY w), rfl, wordXyn_of_fits rfl rfl h⟩
  | .sub, h => ⟨.sub (fieldX w) (fieldY w), rfl, wordXyn_of_fits rfl rfl h⟩
  | .shr, h => ⟨.shr (fieldX w) (fieldY w), rfl, wordXyn_of_fits rfl rfl h⟩
  | .subn, h => ⟨.subn (fieldX w) (fieldY w), rfl, wordXyn_of_fits rfl rfl h⟩
  | .shl, h => ⟨.shl (fieldX w) (fieldY w), rfl, wordXyn_of_fits rfl rfl h⟩
  | .sneReg, h => ⟨.sneReg (fieldX w) (fieldY w), rfl, wordXyn_of_fits rfl rfl h⟩
  | .ldI, h => ⟨.ldI (fieldNnn w), rfl, wordNnn_of_fieldOp (fieldOp_of_fits rfl rfl h)⟩
  | .jpV0, h => ⟨.jpV0 (fieldNnn w), rfl, wordNnn_of_fieldOp (fieldOp_of_fits rfl rfl h)⟩
  | .rnd, h => ⟨.rnd (fieldX w) (fieldKk w), rfl, wordXkk_of_fields (fieldOp_of_fits rfl rfl h) rfl⟩
  | .drw, h => ⟨.drw (fieldX w) (fieldY w) (fieldN w), rfl, wordXyn_of_fields (fieldOp_of_fits rfl rfl h) rfl⟩
  | .skp, h => ⟨.skp (fieldX w), rfl, wordXkk_of_fits rfl rfl h⟩
  | .sknp, h => ⟨.sknp (fieldX w), rfl, wordXkk_of_fits rfl rfl h⟩
  | .ldVxDt, h => ⟨.ldVxDt (fieldX w), rfl, wordXkk_of_fits rfl rfl h⟩
  | .ldVxK, h => ⟨.ldVxK (fieldX w), rfl, wordXkk_of_fits rfl rfl h⟩
  | .ldDtVx, h => ⟨.ldDtVx (fieldX w), rfl, wordXkk_of_fits rfl rfl h⟩
  | .ldStVx, h => ⟨.ldStVx (fieldX w), rfl, wordXkk_of_fits rfl rfl h⟩
  | .addI, h => ⟨.addI (fieldX w), rfl, wordXkk_of_fits rfl rfl h⟩
  | .ldF, h => ⟨.ldF (fieldX w), rfl, wordXkk_of_fits rfl rfl h⟩
  | .ldB, h => ⟨.ldB (fieldX w), rfl, wordXkk_of_fits rfl rfl h⟩
  | .ldMemVx, h => ⟨.ldMemVx (fieldX w), rfl, wordXkk_of_fits rfl rfl h⟩
  | .ldVxMem, h => ⟨.ldVxMem (fieldX w), rfl, wordXkk_of_fits rfl rfl h⟩

/-! ## The decoder held against the rows (R52, R53) -/

theorem fits_of_decode {w : Word} {i : Instr} (h : decode w = .instr i) : i.pattern.fits w = true :=
  (encode_of_decode h).1 ▸ encode_fits i

/-- The decoder chooses a row that the word fits, except that it passes over row 1 for the two fixed words. -/
theorem decode_of_fits {p : Pattern} {w : Word} (h : p.fits w = true) :
    (p = .sys ∧ (w = 0x00E0#16 ∨ w = 0x00EE#16)) ∨ ∃ i : Instr, i.pattern = p ∧ decode w = .instr i := by
  obtain ⟨i, rfl, rfl⟩ := exists_encode_of_fits h
  by_cases hwf : i.wellFormed = true
  · exact .inr ⟨i, rfl, decode_encode i hwf⟩
  · obtain rfl | rfl := eq_sys_of_not_wellFormed hwf
    · exact .inl ⟨rfl, .inl rfl⟩
    · exact .inl ⟨rfl, .inr rfl⟩

/-- Rows 2 and 3 are the only ones besides row 1 that a fixed word can fit. -/
theorem eq_cls_or_ret_of_fits {q : Pattern} {w : Word} (hw : w = 0x00E0#16 ∨ w = 0x00EE#16) (hq : q.fits w = true)
    (hsys : q ≠ .sys) : q = .cls ∨ q = .ret := by
  obtain ⟨h, -⟩ | ⟨j, rfl, hj⟩ := decode_of_fits hq
  · exact absurd h hsys
  · obtain rfl | rfl := hw
    · exact .inl (congrArg Instr.pattern (Decoded.instr.inj hj)).symm
    · exact .inr (congrArg Instr.pattern (Decoded.instr.inj hj)).symm

theorem overlapping_rows {p q : Pattern} {w : Word} (hp : p.fits w = true) (hq : q.fits w = true) (hne : p ≠ q) :
    (p = .sys ∧ (q = .cls ∨ q = .ret)) ∨ (q = .sys ∧ (p = .cls ∨ p = .ret)) := by
  obtain ⟨rfl, hw⟩ | ⟨i, rfl, hi⟩ := decode_of_fits hp
  · exact .inl ⟨rfl, eq_cls_or_ret_of_fits hw hq hne.symm⟩
  · obtain ⟨rfl, hw⟩ | ⟨j, rfl, hj⟩ := decode_of_fits hq
    · exact .inr ⟨rfl, eq_cls_or_ret_of_fits hw hp hne⟩
    · exact absurd (congrArg Instr.pattern (Decoded.instr.inj (hi.symm.trans hj))) hne

theorem decode_unmatched_iff (w : Word) : decode w = .unmatched w ↔ ∀ p : Pattern, p.fits w = false := by
  constructor
  · intro hun p
    refine Bool.eq_false_iff.mpr fun hp => ?_
    obtain ⟨-, rfl | rfl⟩ | ⟨i, -, hi⟩ := decode_of_fits hp
    · exact nomatch hun
    · exact nomatch hun
    · exact nomatch hi.symm.trans hun
  · intro hnone
    cases hd : decode w with
    | instr i => exact absurd (fits_of_decode hd) (by simp [hnone])
    | unmatched u => rw [eq_of_decode_unmatched hd]

/-- Settles O3: the word of every row is the word of an instruction of that row, which the decoder gives back unless it
is an ill-formed `SYS` term; so two rows of one word give one instruction, or one of them is row 1 on a fixed word. -/
theorem decodeFollowsTheOpcodeTable : Obligations.DecodeFollowsTheOpcodeTable := by
  refine ⟨fun _ _ => fits_of_decode, decode_unmatched_iff, fun _ _ _ => overlapping_rows, ?_, ?_⟩
  · intro w h
    rw [eq_value_of_fits rfl h]
    rfl
  · intro w h
    rw [eq_value_of_fits rfl h]
    rfl

/-- Settles O5: nine of the words are the words of the instructions that R58 gives for them, and 0x5121 has a low
nibble other than 0. -/
theorem exampleWordsDecodeAsStated : Obligations.ExampleWordsDecodeAsStated :=
  ⟨decode_encode (.ldByte 2#4 0x00#8) rfl, decode_encode (.ldVxK 0#4) rfl, decode_encode (.ldDtVx 0#4) rfl,
    decode_encode (.ldVxDt 1#4) rfl, decode_encode (.sneByte 1#4 0x00#8) rfl, decode_encode (.jp 0x204#12) rfl,
    decode_encode .cls rfl, decode_encode (.sys 0x000#12) rfl, by decide, decode_encode (.drw 1#4 2#4 15#4) rfl⟩

end Sys2Proof
end

section
/-! PROOFS. Control transfer (spec/41_control_flow.md R70 to R79): how a frame grows with each write, each meaning as
one write of `pc` (and, for RET and CALL, one of the stack), and the statements about the seven kinds of transfer. -/

namespace Sys2Proof.Machine

/-! ## Frames, write by write -/

section
variable {writes : Part → Prop} {s t : State}

theorem Frame.refl (writes : Part → Prop) (s : State) : Frame writes s s :=
  ⟨fun _ _ => rfl, fun _ => rfl, fun _ => rfl, fun _ => rfl, fun _ => rfl, fun _ _ => rfl, fun _ => rfl, fun _ => rfl,
    rfl, rfl, rfl, rfl, rfl, rfl, rfl, rfl, rfl, rfl, rfl⟩

/-- The program counter is outside every frame. -/
theorem Frame.setPc (h : Frame writes s t) (a : Addr) : Frame writes s (t.setPc a) := h

theorem Frame.setStack (h : Frame writes s t) (hstack : writes .stack) (l : List Addr) :
    Frame writes s (t.setStack l) := by
  obtain ⟨hv, hi, -, hdt, hst, hmem, hdisp, hdraws, hcontrol⟩ := h
  exact ⟨hv, hi, fun hn => absurd hstack hn, hdt, hst, hmem, hdisp, hdraws, hcontrol⟩

/-- RET and CALL write the stack and `pc`. -/
theorem Frame.of_setStack_setPc (s : State) (l : List Addr) (a : Addr) :
    Frame (fun p => p = .stack) s ((s.setStack l).setPc a) :=
  ((Frame.refl (fun p => p = .stack) s).setStack rfl l).setPc a

/-- An instruction whose one write is that of `pc` completes, and its frame is empty. -/
theorem completes_of_exec_setPc {i : Instr} {a : Addr} (h : exec i s = .next (s.setPc a)) :
    ∃ t, exec i s = .next t ∧ t.pc = a ∧ Frame (fun _ => False) s t :=
  ⟨s.setPc a, h, rfl, (Frame.refl _ s).setPc a⟩

end

/-! ## The meanings as equations -/

theorem exec_sys (nnn : Addr) (s : State) : exec (.sys nnn) s = .next (s.setPc (s.pc + 2#12)) := rfl

theorem exec_ret (s : State) : exec .ret s = .next ((s.setStack s.stack.tail).setPc s.popped) := rfl

theorem exec_jp (nnn : Addr) (s : State) : exec (.jp nnn) s = .next (s.setPc nnn) := rfl

/-- The offset register is V0, because this hardware does not take `JUMP_OFFSET_VX` (R79). -/
theorem exec_jpV0 (nnn : Addr) (s : State) :
    exec (.jpV0 nnn) s = .next (s.setPc (nnn + (s.readV 0x0#4).setWidth 12)) := rfl

theorem skipIfEqual_true (x : Nibble) (src : Source) (s : State) :
    skipIfEqual true x src s =
      .next (s.setPc (if s.readV x = src.value s then s.pc + 4#12 else s.pc + 2#12)) := by
  simp [skipIfEqual]

theorem skipIfEqual_false (x : Nibble) (src : Source) (s : State) :
    skipIfEqual false x src s =
      .next (s.setPc (if s.readV x ≠ src.value s then s.pc + 4#12 else s.pc + 2#12)) := by
  simp [skipIfEqual]

/-! ## The statements -/

/-- Settles O6: with the two fixed words shut out `SYS` is well formed, and its one write is that of `pc`. -/
theorem sysOnlyAdvancesPc : Obligations.SysOnlyAdvancesPc := by
  intro nnn s
  refine ⟨fun hcls hret => decode_encode (.sys nnn) ?_, completes_of_exec_setPc (exec_sys nnn s)⟩
  simp [Instr.wellFormed, sysOperandOk, hcls, hret]

/-- Settles O7: the stack is nonempty or empty, and head and tail of each are what R20 says. -/
theorem retPopsOrReturnsToZero : Obligations.RetPopsOrReturnsToZero := by
  refine ⟨decode_encode .ret rfl, fun s => ⟨_, exec_ret s, ?_, ?_, ?_⟩⟩
  · intro a rest hstack
    simp [State.popped, hstack]
  · intro hstack
    simp [State.popped, hstack]
  · exact Frame.of_setStack_setPc s _ _

/-- Settles O8: `JP` is one write of `pc`. -/
theorem jpSetsPc : Obligations.JpSetsPc := fun nnn s =>
  ⟨decode_encode (.jp nnn) rfl, completes_of_exec_setPc (exec_jp nnn s)⟩

/-- Settles O9: below 16 entries the push is made, from 16 on it raises the fault. -/
theorem callPushesAndJumpsOrOverflows : Obligations.CallPushesAndJumpsOrOverflows := by
  refine fun nnn s => ⟨decode_encode (.call nnn) rfl, fun hroom => ?_, exec_call_full nnn s⟩
  exact ⟨_, exec_call_ok nnn s hroom, rfl, rfl, Frame.of_setStack_setPc s _ nnn⟩

/-- Settles O11: either skip is one write of `pc`, chosen by the comparison with the byte. -/
theorem skipsOnByteCompareWithVx : Obligations.SkipsOnByteCompareWithVx := fun x kk s =>
  ⟨decode_encode (.seByte x kk) rfl, decode_encode (.sneByte x kk) rfl,
    completes_of_exec_setPc (skipIfEqual_true x (.imm kk) s),
    completes_of_exec_setPc (skipIfEqual_false x (.imm kk) s)⟩

/-- Settles O12: either skip is one write of `pc`, chosen by the comparison with Vy, x = y included. -/
theorem skipsOnRegisterCompareVxWithVy : Obligations.SkipsOnRegisterCompareVxWithVy := fun x y s =>
  ⟨decode_encode (.seReg x y) rfl, decode_encode (.sneReg x y) rfl,
    completes_of_exec_setPc (skipIfEqual_true x (.reg y) s),
    completes_of_exec_setPc (skipIfEqual_false x (.reg y) s)⟩

/-- Settles O13: the 12-bit sum is the sum modulo 4096, and V0 is below 4096. -/
theorem jpV0AddsV0 : Obligations.JpV0AddsV0 := by
  intro nnn s
  obtain ⟨t, hexec, hpc, hframe⟩ := completes_of_exec_setPc (exec_jpV0 nnn s)
  refine ⟨decode_encode (.jpV0 nnn) rfl, t, hexec, ?_, hframe⟩
  rw [hpc, BitVec.toNat_add, BitVec.toNat_setWidth_of_le (by decide)]

end Sys2Proof.Machine
end

section
/-! PROOFS. Register arithmetic and logic (spec/42_alu.md R80 to R91): what the two ways of ending an ALU instruction
leave, each meaning as one of them, the flags as numbers, and the statements about the eleven instructions. -/

namespace Sys2Proof.Machine

/-! ## Writes of a register, alone and with the flag after it (R80) -/

section
variable {writes : Part → Prop} {i : Instr} {s t : State} {x : Nibble} {b : Byte} {f : Bool}

theorem Frame.writeV (h : Frame writes s t) (hx : writes (.v x)) (b : Byte) : Frame writes s (t.writeV x b) := by
  obtain ⟨hv, hrest⟩ := h
  refine ⟨fun r hr => ?_, hrest⟩
  have hne : r ≠ x := fun heq => hr (heq ▸ hx)
  rw [State.readV_writeV, if_neg hne, hv r hr]

theorem completes_of_exec_writeAndNext (h : exec i s = writeAndNext x b s) :
    ∃ t, exec i s = .next t ∧ t.readV x = b ∧ t.pc = s.pc + 2#12 ∧ Frame (fun p => p = .v x) s t :=
  ⟨_, h, State.readV_writeV_self s x b, rfl, ((Frame.refl (fun p => p = .v x) s).writeV rfl b).setPc _⟩

/-- The flag is written last, so VF holds it for every `x`, and Vx holds the result unless it is VF itself. -/
theorem completes_of_exec_writeFlagAndNext (h : exec i s = writeFlagAndNext x b f s) :
    ∃ t, exec i s = .next t ∧ (x ≠ vf → t.readV x = b) ∧ t.readV vf = flagByte f ∧ t.pc = s.pc + 2#12 ∧
      Frame (fun p => p = .v x ∨ p = .v vf) s t := by
  refine ⟨_, h, fun hne => ?_, State.readV_writeV_self _ vf _, rfl, ?_⟩
  · rw [State.nextInstr_eq, State.readV_setPc, State.writeResultAndFlag_eq, State.readV_writeV, if_neg hne,
      State.readV_writeV_self]
  · exact (((Frame.refl _ s).writeV (.inl rfl) b).writeV (.inr rfl) (flagByte f)).setPc _

end

/-! ## The meanings as equations

This hardware takes none of `LOGIC_RESETS_VF`, `SUB_FLAG_STRICT` and `SHIFT_USES_VY`. -/

theorem exec_ldByte (x : Nibble) (kk : Byte) (s : State) : exec (.ldByte x kk) s = writeAndNext x kk s := rfl

theorem exec_addByte (x : Nibble) (kk : Byte) (s : State) :
    exec (.addByte x kk) s = writeAndNext x (s.readV x + kk) s := rfl

theorem exec_ldReg (x y : Nibble) (s : State) : exec (.ldReg x y) s = writeAndNext x (s.readV y) s := rfl

theorem exec_orReg (x y : Nibble) (s : State) :
    exec (.orReg x y) s = writeAndNext x (s.readV x ||| s.readV y) s := rfl

theorem exec_andReg (x y : Nibble) (s : State) :
    exec (.andReg x y) s = writeAndNext x (s.readV x &&& s.readV y) s := rfl

theorem exec_xorReg (x y : Nibble) (s : State) :
    exec (.xorReg x y) s = writeAndNext x (s.readV x ^^^ s.readV y) s := rfl

theorem exec_addReg (x y : Nibble) (s : State) :
    exec (.addReg x y) s =
      writeFlagAndNext x (s.readV x + s.readV y) (carryFlag (s.readV x) (s.readV y)) s := rfl

theorem exec_sub (x y : Nibble) (s : State) :
    exec (.sub x y) s =
      writeFlagAndNext x (s.readV x - s.readV y) (notBorrowFlag false (s.readV x) (s.readV y)) s := rfl

theorem exec_subn (x y : Nibble) (s : State) :
    exec (.subn x y) s =
      writeFlagAndNext x (s.readV y - s.readV x) (notBorrowFlag false (s.readV y) (s.readV x)) s := rfl

theorem exec_shr (x y : Nibble) (s : State) :
    exec (.shr x y) s = writeFlagAndNext x (s.readV x >>> 1) (shiftedOutRight (s.readV x)) s := rfl

theorem exec_shl (x y : Nibble) (s : State) :
    exec (.shl x y) s = writeFlagAndNext x (s.readV x <<< 1) (shiftedOutLeft (s.readV x)) s := rfl

/-! ## The flags as numbers (R87 to R91) -/

theorem flagByte_toNat (f : Bool) : (flagByte f).toNat = f.toNat := by
  cases f <;> rfl

theorem flagByte_carryFlag (a b : Byte) :
    flagByte (carryFlag a b) = if a.toNat + b.toNat > 255 then 0x01#8 else 0x00#8 := by
  simp [flagByte, carryFlag]

theorem flagByte_notBorrowFlag (a b : Byte) :
    flagByte (notBorrowFlag false a b) = if a.toNat ≥ b.toNat then 0x01#8 else 0x00#8 := by
  simp [flagByte, notBorrowFlag]

theorem shiftedOutRight_toNat (a : Byte) : (shiftedOutRight a).toNat = a.toNat % 2 := by
  rw [shiftedOutRight, BitVec.getLsbD, Nat.toNat_testBit, Nat.pow_zero, Nat.div_one]

/-- Bit 7 is the top bit of a byte, so nothing is left above it. -/
theorem shiftedOutLeft_toNat (a : Byte) : (shiftedOutLeft a).toNat = a.toNat / 128 := by
  rw [shiftedOutLeft, BitVec.getLsbD, Nat.toNat_testBit]
  have := a.isLt
  omega

/-! ## One argument for SUB and SUBN, one for OR, AND and XOR -/

/-- The difference modulo 256 and its NOT borrow, for SUB and SUBN alike: they differ in which operand is which. -/
theorem completes_of_exec_difference {i : Instr} {s : State} {x : Nibble} {a b : Byte}
    (h : exec i s = writeFlagAndNext x (a - b) (notBorrowFlag false a b) s) :
    ∃ t, exec i s = .next t ∧ (x ≠ vf → (t.readV x).toNat = (a.toNat + 256 - b.toNat) % 256) ∧
      t.readV vf = (if a.toNat ≥ b.toNat then 0x01#8 else 0x00#8) ∧
      t.pc = s.pc + 2#12 ∧ Frame (fun p => p = .v x ∨ p = .v vf) s t := by
  obtain ⟨t, hexec, hresult, hflag, hpcFrame⟩ := completes_of_exec_writeFlagAndNext h
  refine ⟨t, hexec, fun hne => ?_, hflag.trans (flagByte_notBorrowFlag a b), hpcFrame⟩
  rw [hresult hne, BitVec.toNat_sub]
  have := b.isLt
  omega

/-- A result given bit by bit, for OR, AND and XOR alike. -/
theorem completes_of_exec_bitwise {i : Instr} {s : State} {x : Nibble} {b : Byte} {bit : Nat → Bool}
    (h : exec i s = writeAndNext x b s) (hbit : ∀ k, b.getLsbD k = bit k) :
    ∃ t, exec i s = .next t ∧ (∀ k, (t.readV x).getLsbD k = bit k) ∧
      t.pc = s.pc + 2#12 ∧ Frame (fun p => p = .v x) s t := by
  obtain ⟨t, hexec, rfl, hpcFrame⟩ := completes_of_exec_writeAndNext h
  exact ⟨t, hexec, hbit, hpcFrame⟩

/-! ## The statements -/

/-- Settles O16: the 8-bit sum is the sum modulo 256, and the carry, written last, is there for every `x`. -/
theorem addSetsCarry : Obligations.AddSetsCarry := by
  intro x y s
  obtain ⟨t, hexec, hresult, hflag, hpcFrame⟩ := completes_of_exec_writeFlagAndNext (exec_addReg x y s)
  refine ⟨decode_encode (.addReg x y) rfl, t, hexec, fun hne => ?_, hflag.trans (flagByte_carryFlag _ _), hpcFrame⟩
  rw [hresult hne, BitVec.toNat_add]

/-- Settles O17: SUB and SUBN are one subtraction with the operands exchanged. -/
theorem subtractionsSetNotBorrow : Obligations.SubtractionsSetNotBorrow := fun x y s =>
  ⟨decode_encode (.sub x y) rfl, decode_encode (.subn x y) rfl, completes_of_exec_difference (exec_sub x y s),
    completes_of_exec_difference (exec_subn x y s)⟩

/-- Settles O18: a shift by one halves, or doubles modulo 256, and the bit it drops is the remainder, or the top
bit. -/
theorem shiftsMoveVxByOneBit : Obligations.ShiftsMoveVxByOneBit := by
  intro x y s
  refine ⟨decode_encode (.shr x y) rfl, decode_encode (.shl x y) rfl, ?shr, ?shl⟩
  case shr =>
    obtain ⟨t, hexec, hresult, hflag, hpcFrame⟩ := completes_of_exec_writeFlagAndNext (exec_shr x y s)
    refine ⟨t, hexec, fun hne => ?_, ?_, hpcFrame⟩
    · rw [hresult hne, BitVec.toNat_ushiftRight, Nat.shiftRight_eq_div_pow, Nat.pow_one]
    · rw [hflag, flagByte_toNat, shiftedOutRight_toNat]
  case shl =>
    obtain ⟨t, hexec, hresult, hflag, hpcFrame⟩ := completes_of_exec_writeFlagAndNext (exec_shl x y s)
    refine ⟨t, hexec, fun hne => ?_, ?_, hpcFrame⟩
    · rw [hresult hne, BitVec.toNat_shiftLeft, Nat.shiftLeft_eq, Nat.pow_one]
    · rw [hflag, flagByte_toNat, shiftedOutLeft_toNat]

/-- Settles O14: each of the three is one register write, and the 8-bit sum is the sum modulo 256. -/
theorem loadsAndPlainAddWriteVxOnly : Obligations.LoadsAndPlainAddWriteVxOnly := by
  intro x y kk s
  refine ⟨decode_encode (.ldByte x kk) rfl, decode_encode (.addByte x kk) rfl, decode_encode (.ldReg x y) rfl,
    completes_of_exec_writeAndNext (exec_ldByte x kk s), ?_, completes_of_exec_writeAndNext (exec_ldReg x y s)⟩
  obtain ⟨t, hexec, hresult, hpcFrame⟩ := completes_of_exec_writeAndNext (exec_addByte x kk s)
  refine ⟨t, hexec, ?_, hpcFrame⟩
  rw [hresult, BitVec.toNat_add]

/-- Settles O15: each of the three is one register write, of a result that is the Boolean operation bit by bit. -/
theorem logicOperationsWriteVxOnly : Obligations.LogicOperationsWriteVxOnly := fun x y s =>
  ⟨decode_encode (.orReg x y) rfl, decode_encode (.andReg x y) rfl, decode_encode (.xorReg x y) rfl,
    completes_of_exec_bitwise (exec_orReg x y s) fun _ => BitVec.getLsbD_or,
    completes_of_exec_bitwise (exec_andReg x y s) fun _ => BitVec.getLsbD_and,
    completes_of_exec_bitwise (exec_xorReg x y s) fun _ => BitVec.getLsbD_xor⟩

end Sys2Proof.Machine
end

section
/-! PROOFS. The index register and memory transfer (spec/43_index_memory.md R93 to R98): what a write of I, a store at I
and a load from I leave, with their frames, and the statements about the six instructions. -/

namespace Sys2Proof.Machine

/-! ## Frames of the writes of I, of memory and of a register range -/

section
variable {writes : Part → Prop} {s t : State}

theorem Frame.mono {writes' : Part → Prop} (h : Frame writes s t) (hsub : ∀ p, writes p → writes' p) :
    Frame writes' s t := by
  obtain ⟨hv, hi, hstack, hdt, hst, hmem, hdisp, hdraws, hcontrol⟩ := h
  exact ⟨fun x hn => hv x (mt (hsub _) hn), fun hn => hi (mt (hsub _) hn), fun hn => hstack (mt (hsub _) hn),
    fun hn => hdt (mt (hsub _) hn), fun hn => hst (mt (hsub _) hn), fun a hn => hmem a (mt (hsub _) hn),
    fun hn => hdisp (mt (hsub _) hn), fun hn => hdraws (mt (hsub _) hn), hcontrol⟩

theorem Frame.setI (h : Frame writes s t) (hi : writes .i) (a : Addr) : Frame writes s (t.setI a) := by
  obtain ⟨hv, -, hrest⟩ := h
  exact ⟨hv, fun hn => absurd hi hn, hrest⟩

theorem Frame.setMem (h : Frame writes s t) {m : Memory}
    (hm : ∀ a, ¬ writes (.mem a) → Memory.read a m = Memory.read a t.mem) : Frame writes s (t.setMem m) := by
  obtain ⟨hv, hi, hstack, hdt, hst, hmem, hrest⟩ := h
  exact ⟨hv, hi, hstack, hdt, hst, fun a hn => (hm a hn).trans (hmem a hn), hrest⟩

theorem Frame.writeRegs {bs : List Byte} {k : Nat} (h : Frame writes s t) (hk : k + bs.length ≤ 16)
    (hregs : ∀ r : Nibble, r.toNat < k + bs.length → writes (.v r)) : Frame writes s (t.writeRegs k bs) := by
  induction bs generalizing t k with
  | nil => exact h
  | cons b bs ih =>
    rw [List.length_cons] at hk hregs
    have hfirst : (BitVec.ofNat 4 k).toNat = k := Nat.mod_eq_of_lt (by omega)
    exact ih (h.writeV (hregs _ (by omega)) b) (by omega) fun r hr => hregs r (by omega)

end

/-! ## Data addresses (R36) -/

/-- This hardware takes `wrap`, so offset `k` from I reaches one byte and raises nothing. -/
theorem dataAddr_iff {s : State} {k a : Nat} : dataAddr s k a ↔ a = (s.i.toNat + k) % memSize := by
  rw [dataAddr, show quirks.addrWrap = .wrap from rfl, addr_wrap, State.ea, Except.ok.injEq, eq_comm]

/-! ## The meanings as equations -/

theorem exec_ldI (nnn : Addr) (s : State) : exec (.ldI nnn) s = .next (s.setI nnn).nextInstr := rfl

theorem exec_addI (x : Nibble) (s : State) :
    exec (.addI x) s = .next (s.setI (s.i + (s.readV x).setWidth 12)).nextInstr := rfl

theorem exec_ldF (x : Nibble) (s : State) :
    exec (.ldF x) s = .next (s.setI (glyphAddr (s.readV x))).nextInstr := rfl

/-- The `n` bytes from I on, each address modulo 4096. -/
def State.bytesAtI (s : State) (n : Nat) : List Byte :=
  (List.range n).map fun k => Memory.read ((s.i.toNat + k) % memSize) s.mem

@[simp] theorem State.bytesAtI_length (s : State) (n : Nat) : (s.bytesAtI n).length = n := by
  simp [State.bytesAtI]

theorem State.bytesAtI_getElem? (s : State) {n k a : Nat} (hk : k < n) (ha : dataAddr s k a) :
    (s.bytesAtI n)[k]? = some (Memory.read a s.mem) := by
  simp [State.bytesAtI, hk, dataAddr_iff.mp ha]

theorem exec_ldVxMem_bytesAtI (x : Nibble) (s : State) :
    exec (.ldVxMem x) s = .next (s.writeRegs 0 (s.bytesAtI (x.toNat + 1))).nextInstr := exec_ldVxMem x s

/-! ## What a write of I and a store at I leave -/

theorem completes_of_exec_setI {i : Instr} {s : State} {a : Addr} (h : exec i s = .next (s.setI a).nextInstr) :
    ∃ t, exec i s = .next t ∧ t.i = a ∧ t.pc = s.pc + 2#12 ∧ Frame (fun p => p = .i) s t :=
  ⟨_, h, rfl, rfl, ((Frame.refl (fun p => p = .i) s).setI rfl a).setPc _⟩

/-- Each byte of a store lands at its own data address, and no other byte changes, for LD B and LD [I], Vx alike. -/
theorem completes_of_exec_store {i : Instr} {s : State} {bytes : List Byte}
    (h : ∃ m, storeBytes .wrap s.i.toNat bytes s.mem = .ok m ∧ exec i s = .next (s.setMem m).nextInstr)
    (hlen : bytes.length ≤ memSize) :
    ∃ t, exec i s = .next t ∧
      (s.mem.wf = true → ∀ k (hk : k < bytes.length) a, dataAddr s k a → Memory.read a t.mem = bytes[k]) ∧
      t.pc = s.pc + 2#12 ∧ Frame (fun p => ∃ k a, k < bytes.length ∧ dataAddr s k a ∧ p = .mem a) s t := by
  obtain ⟨m, hstore, hexec⟩ := h
  refine ⟨_, hexec, fun hwf k hk a ha => ?_, rfl, ((Frame.refl _ s).setMem fun a hother => ?_).setPc _⟩
  · rw [dataAddr_iff.mp ha]
    exact storeBytes_read hwf hstore hlen hk
  · exact storeBytes_read_other hstore fun k hk heq => hother ⟨k, a, hk, dataAddr_iff.mpr heq, rfl⟩

@[simp] theorem decimalDigits_length (v : Byte) : (decimalDigits v).length = 3 := rfl

/-- Each digit fits a byte, so none is cut (R96). -/
theorem toNat_decimalDigits (v : Byte) :
    (decimalDigits v)[0].toNat = v.toNat / 100 ∧ (decimalDigits v)[1].toNat = v.toNat / 10 % 10 ∧
      (decimalDigits v)[2].toNat = v.toNat % 10 := by
  have hv := v.isLt
  exact ⟨Nat.mod_eq_of_lt (by omega), Nat.mod_eq_of_lt (by omega), Nat.mod_eq_of_lt (by omega)⟩

/-! ## The statements -/

/-- Settles O23: a store of three bytes, which are the digits. -/
theorem ldBStoresDecimalDigits : Obligations.LdBStoresDecimalDigits := by
  intro x s
  have hlen : (decimalDigits (s.readV x)).length ≤ memSize := by
    rw [decimalDigits_length]
    decide
  obtain ⟨t, hexec, hread, hpcFrame⟩ := completes_of_exec_store (exec_ldB x s) hlen
  rw [decimalDigits_length] at hpcFrame
  obtain ⟨hhundreds, htens, hones⟩ := toNat_decimalDigits (s.readV x)
  refine ⟨decode_encode (.ldB x) rfl, t, hexec, fun hwf a ha => ?_, fun hwf a ha => ?_, fun hwf a ha => ?_, hpcFrame⟩
  · rw [hread hwf 0 (by simp) a ha, hhundreds]
  · rw [hread hwf 1 (by simp) a ha, htens]
  · rw [hread hwf 2 (by simp) a ha, hones]

/-- Settles O24: a store of the register range, whose byte at offset `r` is register `r`. -/
theorem ldMemStoresV0ToVx : Obligations.LdMemStoresV0ToVx := by
  intro x s
  have hlen : (s.regRange x).length ≤ memSize := by
    have := x.isLt
    rw [State.regRange_length, memSize]
    omega
  obtain ⟨t, hexec, hread, hpc, hframe⟩ := completes_of_exec_store (exec_ldMemVx x s) hlen
  rw [State.regRange_length] at hframe
  refine ⟨decode_encode (.ldMemVx x) rfl, t, hexec, fun hwf r hr a ha => ?_, hpc, hframe.mono ?_⟩
  · have hlt : r.toNat < (s.regRange x).length := by
      rw [State.regRange_length]
      omega
    rw [hread hwf r.toNat hlt a ha, State.regRange_getElem, BitVec.ofNat_toNat, BitVec.setWidth_eq]
  · rintro p ⟨k, a, hk, ha⟩
    exact ⟨k, a, Nat.le_of_lt_succ hk, ha⟩

/-- Settles O25: a write of the registers from V0 on, with the bytes from I on, of which there are x + 1. -/
theorem ldVxLoadsV0ToVx : Obligations.LdVxLoadsV0ToVx := by
  intro x s
  have hlen : 0 + (s.bytesAtI (x.toNat + 1)).length ≤ 16 := by
    have := x.isLt
    rw [State.bytesAtI_length]
    omega
  refine ⟨decode_encode (.ldVxMem x) rfl, _, exec_ldVxMem_bytesAtI x s, fun r hr a ha => ?_, ?_, ?_⟩
  · rw [State.nextInstr_eq, State.readV_setPc, State.readV_writeRegs s 0 _ hlen, if_pos (Nat.zero_le _), Nat.sub_zero,
      State.bytesAtI_getElem? s (Nat.lt_succ_of_le hr) ha, Option.getD_some]
  · rw [State.writeRegs_eq]
    rfl
  · refine ((Frame.refl _ s).writeRegs hlen fun r hr => ⟨r, ?_, rfl⟩).setPc _
    rw [State.bytesAtI_length] at hr
    omega

/-- Settles O20: each of the three is one write of I; the 12-bit sum is the sum modulo 4096, and the glyph address is
cut to 12 bits with the digit whole. -/
theorem indexRegisterWrites : Obligations.IndexRegisterWrites := by
  intro x nnn s
  refine ⟨decode_encode (.ldI nnn) rfl, decode_encode (.addI x) rfl, decode_encode (.ldF x) rfl,
    completes_of_exec_setI (exec_ldI nnn s), ?addI, ?ldF⟩
  case addI =>
    obtain ⟨t, hexec, hi, hpcFrame⟩ := completes_of_exec_setI (exec_addI x s)
    refine ⟨t, hexec, ?_, hpcFrame⟩
    rw [hi, BitVec.toNat_add, BitVec.toNat_setWidth_of_le (by decide)]
  case ldF =>
    obtain ⟨t, hexec, hi, hpcFrame⟩ := completes_of_exec_setI (exec_ldF x s)
    refine ⟨t, hexec, ?_, hpcFrame⟩
    rw [hi, glyphAddr, BitVec.toNat_ofNat, fontBase]

end Sys2Proof.Machine
end

section
/-! PROOFS. Timers and keys (spec/44_timers_keys.md R99 to R104, R112): frames of the timers' writes, the key search,
the key that Vx names, and the statements about the six instructions. -/

namespace Sys2Proof.Machine

/-! ## Frames of the writes of the timers -/

section
variable {writes : Part → Prop} {s t : State}

theorem Frame.setDt (h : Frame writes s t) (hdt : writes .dt) (b : Byte) : Frame writes s (t.setDt b) := by
  obtain ⟨hv, hi, hstack, -, hrest⟩ := h
  exact ⟨hv, hi, hstack, fun hn => absurd hdt hn, hrest⟩

theorem Frame.setSt (h : Frame writes s t) (hst : writes .st) (b : Byte) : Frame writes s (t.setSt b) := by
  obtain ⟨hv, hi, hstack, hdt, -, hrest⟩ := h
  exact ⟨hv, hi, hstack, hdt, fun hn => absurd hst hn, hrest⟩

end

/-! ## The lowest key that is down (R100) -/

theorem State.lowestKey_eq_some {s : State} {k : Fin 16} (hdown : s.key[k] = true)
    (hup : ∀ j : Fin 16, j < k → s.key[j] = false) : s.lowestKey = some k.val := by
  rw [State.lowestKey, List.find?_range_eq_some]
  refine ⟨(s.keyDown_eq k).trans hdown, List.mem_range.mpr k.isLt, fun j hj => ?_⟩
  rw [s.keyDown_eq ⟨j, hj.trans k.isLt⟩, hup _ hj, Bool.not_false]

theorem State.lowestKey_eq_none {s : State} (hup : ∀ k : Fin 16, s.key[k] = false) : s.lowestKey = none := by
  rw [State.lowestKey, List.find?_range_eq_none]
  intro k hk
  rw [s.keyDown_eq ⟨k, hk⟩, hup, Bool.not_false]

theorem stalls_ldVxK (x : Nibble) (s : State) : stalls (.instr (.ldVxK x)) s = s.lowestKey.isNone := rfl

/-! ## The meanings as equations -/

theorem exec_ldVxDt (x : Nibble) (s : State) : exec (.ldVxDt x) s = writeAndNext x s.dt s := rfl

theorem exec_ldDtVx (x : Nibble) (s : State) : exec (.ldDtVx x) s = .next (s.setDt (s.readV x)).nextInstr := rfl

theorem exec_ldStVx (x : Nibble) (s : State) : exec (.ldStVx x) s = .next (s.setSt (s.readV x)).nextInstr := rfl

theorem exec_ldVxK_of_some {x : Nibble} {s : State} {k : Nat} (h : s.lowestKey = some k) :
    exec (.ldVxK x) s = writeAndNext x (BitVec.ofNat 8 k) s := by
  simp [exec, execLdVxK, h]

theorem exec_ldVxK_of_none {x : Nibble} {s : State} (h : s.lowestKey = none) : exec (.ldVxK x) s = .next s := by
  simp [exec, execLdVxK, h]

/-- Vx names the key `k` of the array. -/
theorem State.keyOf_eq_key {s : State} {x : Nibble} {k : Fin 16} (h : (s.readV x).toNat = k.val) :
    s.keyOf x = .ok s.key[k] := by
  rw [s.keyOf_ok x (by omega), h, s.keyDown_eq k]

theorem exec_skp_of_key {x : Nibble} {s : State} {k : Fin 16} (h : (s.readV x).toNat = k.val) :
    exec (.skp x) s = .next (s.setPc (if s.key[k] = true then s.pc + 4#12 else s.pc + 2#12)) := by
  rw [exec, execSkp, State.keyOf_eq_key h, Except.map, finish_ok, State.skipWhen_eq]

theorem exec_sknp_of_key {x : Nibble} {s : State} {k : Fin 16} (h : (s.readV x).toNat = k.val) :
    exec (.sknp x) s = .next (s.setPc (if s.key[k] = false then s.pc + 4#12 else s.pc + 2#12)) := by
  simp only [exec, execSknp, State.keyOf_eq_key h, Except.map, finish_ok, State.skipWhen_eq, Bool.not_eq_true']

theorem exec_skp_out {x : Nibble} {s : State} (h : 0x0F < (s.readV x).toNat) :
    exec (.skp x) s = .fault (.keyIndexOutOfRange (s.readV x)) := by
  rw [exec, execSkp, s.keyOf_out x h, Except.map, finish_error]

theorem exec_sknp_out {x : Nibble} {s : State} (h : 0x0F < (s.readV x).toNat) :
    exec (.sknp x) s = .fault (.keyIndexOutOfRange (s.readV x)) := by
  rw [exec, execSknp, s.keyOf_out x h, Except.map, finish_error]

/-! ## The statements -/

/-- Settles O30: the search ends at the lowest key that is down, whose number fits a byte; with none down it finds
nothing, and the state is as it was. -/
theorem keyWaitTakesLowestKeyOrStalls : Obligations.KeyWaitTakesLowestKeyOrStalls := by
  refine fun x s => ⟨decode_encode (.ldVxK x) rfl, fun k hdown hup => ?down, fun hup => ?stall⟩
  case down =>
    have hlowest := State.lowestKey_eq_some hdown hup
    obtain ⟨t, hexec, hresult, hpcFrame⟩ := completes_of_exec_writeAndNext (exec_ldVxK_of_some (x := x) hlowest)
    refine ⟨?_, t, hexec, ?_, hpcFrame⟩
    · rw [stalls_ldVxK, hlowest, Option.isNone_some]
    · rw [hresult, BitVec.toNat_ofNat]
      omega
  case stall =>
    have hlowest := State.lowestKey_eq_none hup
    refine ⟨?_, exec_ldVxK_of_none hlowest⟩
    rw [stalls_ldVxK, hlowest, Option.isNone_none]

/-- Settles O31: up to 0x0F either skip is one write of `pc`, chosen by the named key; above it either raises the
fault. -/
theorem keySkipsTestTheNamedKey : Obligations.KeySkipsTestTheNamedKey := fun x _ =>
  ⟨decode_encode (.skp x) rfl, decode_encode (.sknp x) rfl,
    fun _ hk => ⟨completes_of_exec_setPc (exec_skp_of_key hk), completes_of_exec_setPc (exec_sknp_of_key hk)⟩,
    fun hout => ⟨exec_skp_out hout, exec_sknp_out hout⟩⟩

/-- Settles O29: the read is one register write, and each of the others is one write of its timer. -/
theorem timerReadsAndWrites : Obligations.TimerReadsAndWrites := fun x s =>
  ⟨decode_encode (.ldVxDt x) rfl, decode_encode (.ldDtVx x) rfl, decode_encode (.ldStVx x) rfl,
    completes_of_exec_writeAndNext (exec_ldVxDt x s),
    ⟨_, exec_ldDtVx x s, rfl, rfl, ((Frame.refl (fun p => p = .dt) s).setDt rfl _).setPc _⟩,
    ⟨_, exec_ldStVx x s, rfl, rfl, ((Frame.refl (fun p => p = .st) s).setSt rfl _).setPc _⟩⟩

end Sys2Proof.Machine
end

section
/-! PROOFS. The display (spec/45_display.md R105 to R107): the frame of a write of the display, what a sprite leaves on
the grid and when it hits, and the statements about CLS and DRW. -/

namespace Sys2Proof.Machine

/-! ## Frames and extensionality of the display -/

theorem Frame.setDisp {writes : Part → Prop} {s t : State} (h : Frame writes s t) (hdisp : writes .disp) (d : Display) :
    Frame writes s (t.setDisp d) := by
  obtain ⟨hv, hi, hstack, hdt, hst, hmem, -, hrest⟩ := h
  exact ⟨hv, hi, hstack, hdt, hst, hmem, fun hn => absurd hdisp hn, hrest⟩

/-- Outside the grid no display has a pixel, so the grid alone decides. -/
theorem Display.ext_grid {d e : Display} (h : ∀ px py, px < 64 → py < 32 → d.pixel px py = e.pixel px py) : d = e := by
  refine Display.ext_pixel fun px py => ?_
  by_cases hgrid : px < 64 ∧ py < 32
  · exact h px py hgrid.1 hgrid.2
  · rw [d.pixel_outside hgrid, e.pixel_outside hgrid]

/-! ## The sprite on the grid (R106, R107) -/

theorem spriteBytes_length (s : State) (n : Nibble) : (spriteBytes s n).length = n.toNat := by
  simp [spriteBytes]

/-- The sprite starts off the grid, or it has no row. -/
theorem spriteBit_eq_false {x0 y0 px py : Nat} {bytes : List Byte} (h : 64 ≤ x0 ∨ 32 ≤ y0 ∨ bytes.length = 0)
    (hx : px < 64) (hy : py < 32) : spriteBit x0 y0 bytes px py = false := by
  refine Bool.eq_false_iff.mpr fun hbit => ?_
  simp only [spriteBit, Bool.and_eq_true, decide_eq_true_eq] at hbit
  omega

section
variable {s : State} {x y : Nibble} {bytes : List Byte}

theorem State.sprite_pixel {px py : Nat} (hx : px < 64) (hy : py < 32) :
    (s.sprite x y bytes).1.pixel px py =
      (s.disp.pixel px py ^^ spriteBit (s.readV x).toNat (s.readV y).toNat bytes px py) := by
  rw [State.sprite_eq, drawRows_pixel _ _ _ _ _ _ hx hy]

/-- The hit of the drawing loops, a set bit on a lit pixel, is a lit pixel that went off. -/
theorem State.sprite_hit_iff :
    (s.sprite x y bytes).2 = true ↔
      ∃ px py, px < 64 ∧ py < 32 ∧ s.disp.pixel px py = true ∧ (s.sprite x y bytes).1.pixel px py = false := by
  have hflip : ∀ px py, px < 64 → py < 32 → s.disp.pixel px py = true →
      (spriteBit (s.readV x).toNat (s.readV y).toNat bytes px py = true ↔
        (s.sprite x y bytes).1.pixel px py = false) := fun px py hx hy hlit => by
    rw [State.sprite_pixel hx hy, hlit, Bool.true_xor, Bool.not_eq_false']
  rw [State.sprite_eq, drawRows_hit, ← State.sprite_eq]
  constructor
  · rintro (h | ⟨px, py, hx, hy, hbit, hlit⟩)
    · cases h
    · exact ⟨px, py, hx, hy, hlit, (hflip px py hx hy hlit).mp hbit⟩
  · rintro ⟨px, py, hx, hy, hlit, hoff⟩
    exact .inr ⟨px, py, hx, hy, (hflip px py hx hy hlit).mpr hoff, hlit⟩

theorem State.sprite_not_hit
    (h : ∀ px py, px < 64 → py < 32 → s.disp.pixel px py = true → (s.sprite x y bytes).1.pixel px py = true) :
    (s.sprite x y bytes).2 = false := by
  refine Bool.eq_false_iff.mpr fun hhit => ?_
  obtain ⟨px, py, hx, hy, hlit, hoff⟩ := State.sprite_hit_iff.mp hhit
  exact Bool.false_ne_true (hoff.symm.trans (h px py hx hy hlit))

theorem State.sprite_of_nothing_drawn
    (h : 64 ≤ (s.readV x).toNat ∨ 32 ≤ (s.readV y).toNat ∨ bytes.length = 0) : s.sprite x y bytes = (s.disp, false) := by
  have hdisp : (s.sprite x y bytes).1 = s.disp := Display.ext_grid fun px py hx hy => by
    rw [State.sprite_pixel hx hy, spriteBit_eq_false h hx hy, Bool.xor_false]
  refine Prod.ext hdisp (State.sprite_not_hit fun px py _ _ hlit => ?_)
  rw [hdisp, hlit]

end

/-! ## What the two instructions leave -/

theorem exec_cls (s : State) : exec .cls s = .next (s.setDisp Display.clear).nextInstr := rfl

/-- The coordinates are read before VF is written, so x = F and y = F are no exception (R106). -/
theorem completes_of_exec_drw (x y n : Nibble) (s : State) :
    ∃ t, exec (.drw x y n) s = .next t ∧ t.disp = (s.sprite x y (spriteBytes s n)).1 ∧
      t.readV vf = flagByte (s.sprite x y (spriteBytes s n)).2 ∧ t.pc = s.pc + 2#12 ∧
      Frame (fun p => p = .disp ∨ p = .v vf) s t :=
  ⟨_, exec_drw x y n s, rfl, State.readV_writeV_self _ vf _, rfl,
    (((Frame.refl _ s).setDisp (.inl rfl) _).writeV (.inr rfl) _).setPc _⟩

/-! ## The statements -/

/-- Settles O33: the display is the sprite's, VF is its hit, and a hit is a lit pixel that went off. -/
theorem drwXorsTheClippedSprite : Obligations.DrwXorsTheClippedSprite := by
  intro x y n s
  obtain ⟨t, hexec, hdisp, hflag, hpcFrame⟩ := completes_of_exec_drw x y n s
  refine ⟨decode_encode (.drw x y n) rfl, t, hexec, fun px py hx hy => ?pixels, fun hoff => ?hit, fun hkept => ?noHit,
    fun hnone => ?nothingDrawn, hpcFrame⟩
  case pixels => rw [hdisp, State.sprite_pixel hx hy]
  case hit =>
    rw [hdisp] at hoff
    rw [hflag, State.sprite_hit_iff.mpr hoff]
    rfl
  case noHit =>
    rw [hdisp] at hkept
    rw [hflag, State.sprite_not_hit hkept]
    rfl
  case nothingDrawn =>
    have hsprite : s.sprite x y (spriteBytes s n) = (s.disp, false) := State.sprite_of_nothing_drawn <|
      hnone.imp_right <| Or.imp_right fun hn => by rw [spriteBytes_length, hn]; rfl
    rw [hdisp, hflag, hsprite]
    exact ⟨rfl, rfl⟩

/-- Settles O32: CLS is one write of the display, and VF is outside its frame. -/
theorem clsClearsEveryPixel : Obligations.ClsClearsEveryPixel :=
  ⟨decode_encode .cls rfl, fun s => ⟨_, exec_cls s, fun px py _ _ => Display.pixel_clear px py, rfl,
    ((Frame.refl (fun p => p = .disp) s).setDisp rfl _).setPc _⟩⟩

end Sys2Proof.Machine
end

section
/-! PROOFS. The host's `load` and its settings and keys (spec/70_reset_and_hazards.md R125, R135 to R137): one equation
for each case of a move, accepted or refused. -/

namespace Sys2Proof.Machine

section
variable {s : State}

/-! ## `load(rom)` (R125) -/

theorem State.hostLoad_of_fits {rom : List Byte} (h : rom.length ≤ maxRom) :
    s.hostLoad rom = ({ s with rom := rom } : State).hostReset :=
  if_pos h

theorem State.hostLoad_of_too_long {rom : List Byte} (h : maxRom < rom.length) : s.hostLoad rom = s :=
  if_neg (Nat.not_le.mpr h)

/-! ## The settings (R135, R136) -/

theorem State.hostSetTimingMode_of_unloaded (h : s.run = .unloaded) (b : Bool) :
    s.hostSetTimingMode b = { s with accurate := b } := by
  rw [State.hostSetTimingMode, h]

theorem State.hostSetTimingMode_of_loaded (h : s.run ≠ .unloaded) (b : Bool) :
    s.hostSetTimingMode b = ({ s with accurate := b } : State).hostReset := by
  cases hrun : s.run with
  | unloaded => exact absurd hrun h
  | paused | running => rw [State.hostSetTimingMode, hrun]

theorem State.hostSetClockRate_of_pos {hz : Int} (h : 0 < hz) :
    s.hostSetClockRate hz = { s with clockHz := hz.toNat } :=
  if_pos h

theorem State.hostSetClockRate_of_not_pos {hz : Int} (h : hz ≤ 0) : s.hostSetClockRate hz = s :=
  if_neg (Int.not_lt.mpr h)

/-! ## The keys (R137) -/

theorem State.hostSetKey_of_key (k : Fin 16) (b : Bool) :
    s.hostSetKey k.val b = { s with key := s.key.setIfInBounds k.val b } :=
  if_pos (by omega)

theorem State.hostSetKey_of_no_key {index : Int} (h : index < 0 ∨ 15 < index) (b : Bool) :
    s.hostSetKey index b = s :=
  if_neg (by omega)

end

/-! ## The statements -/

/-- Settles O53: 3584 is `maxRom`, and the loaded state is that of `State.hostReset_eq` with the new program, which
memory reads back. -/
theorem loadStoresTheProgramOrIsRefused : Obligations.LoadStoresTheProgramOrIsRefused := by
  intro s rom
  refine ⟨fun hfits => ?stored, fun hlong => State.hostLoad_of_too_long hlong⟩
  have hload : s.hostOp (.load rom) = ({ s with rom := rom } : State).hostReset := State.hostLoad_of_fits hfits
  rw [hload, State.hostReset_eq]
  exact ⟨rfl, rfl, rfl, fun _ hj => Memory.read_ofRom_program hfits hj, (State.hostReset_eq _).symm⟩

/-- Settles O55: each move is accepted or refused by its own equation, and a key written is read back. -/
theorem settingsAndKeysOfTheHost : Obligations.SettingsAndKeysOfTheHost := by
  intro s
  refine ⟨fun b hrun => State.hostSetTimingMode_of_unloaded hrun b,
    fun b hrun => State.hostSetTimingMode_of_loaded hrun b, fun hz hpos => ?rate,
    fun hz hnot => State.hostSetClockRate_of_not_pos hnot, fun k j b => ?key,
    fun index b hout => State.hostSetKey_of_no_key hout b, fun keys => rfl⟩
  case rate =>
    have hrate : s.hostOp (.setClockRate hz) = { s with clockHz := hz.toNat } := State.hostSetClockRate_of_pos hpos
    rw [hrate]
    exact ⟨Int.toNat_of_nonneg hpos.le, rfl⟩
  case key =>
    have hkey : s.hostOp (.setKey k.val b) = { s with key := s.key.setIfInBounds k.val b } := State.hostSetKey_of_key k b
    rw [hkey]
    exact ⟨by simp [Vector.getElem_setIfInBounds, Fin.ext_iff, eq_comm], rfl⟩

end Sys2Proof.Machine
end

section
/-! PROOFS. Decoding and encoding are inverse (spec/30_encoding.md R53, R54), and which words are unmatched (R55). -/

namespace Sys2Proof

/-- Settles O1: the fields of an instruction's word are its operands, the ill-formed `SYS` terms apart. -/
theorem decodeOfEncodeIsTheInstruction : Obligations.DecodeOfEncodeIsTheInstruction := decode_encode

/-- Settles O2: what a word decodes to denotes that word. -/
theorem encodeOfDecodeIsTheWord : Obligations.EncodeOfDecodeIsTheWord := fun _ _ => encode_of_decode

/-! ## The unmatched words (R55) -/

section
variable {w : Word}

/-- One test in the decoder's chain: a description `P` of the unmatched words has to fit both branches. -/
theorem ite_eq_unmatched_iff {c : Prop} [Decidable c] {d e : Decoded} {P : Prop}
    (hd : c → (d = .unmatched w ↔ P)) (he : ¬ c → (e = .unmatched w ↔ P)) :
    (if c then d else e) = .unmatched w ↔ P := by
  split_ifs with hc
  · exact hd hc
  · exact he hc

theorem decode0_ne_unmatched : decode0 w ≠ .unmatched w := by
  unfold decode0
  split_ifs <;> exact nofun

theorem decode8_eq_unmatched_iff :
    decode8 w = .unmatched w ↔ fieldN w ∈ [0x8#4, 0x9#4, 0xA#4, 0xB#4, 0xC#4, 0xD#4, 0xF#4] := by
  unfold decode8
  split_ifs
  case neg =>
    simp
    bv_omega
  all_goals simp [*]

theorem decodeE_eq_unmatched_iff : decodeE w = .unmatched w ↔ fieldKk w ∉ [0x9E#8, 0xA1#8] := by
  unfold decodeE
  split_ifs <;> simp [*]

theorem decodeF_eq_unmatched_iff :
    decodeF w = .unmatched w ↔
      fieldKk w ∉ [0x07#8, 0x0A#8, 0x15#8, 0x18#8, 0x1E#8, 0x29#8, 0x33#8, 0x55#8, 0x65#8] := by
  unfold decodeF
  split_ifs <;> simp [*]

theorem decode_eq_unmatched_iff :
    decode w = .unmatched w ↔
      ((fieldOp w = 0x5#4 ∨ fieldOp w = 0x9#4) ∧ fieldN w ≠ 0x0#4) ∨
      (fieldOp w = 0x8#4 ∧ fieldN w ∈ [0x8#4, 0x9#4, 0xA#4, 0xB#4, 0xC#4, 0xD#4, 0xF#4]) ∨
      (fieldOp w = 0xE#4 ∧ fieldKk w ∉ [0x9E#8, 0xA1#8]) ∨
      (fieldOp w = 0xF#4 ∧ fieldKk w ∉
        [0x07#8, 0x0A#8, 0x15#8, 0x18#8, 0x1E#8, 0x29#8, 0x33#8, 0x55#8, 0x65#8]) := by
  rw [← decode8_eq_unmatched_iff, ← decodeE_eq_unmatched_iff, ← decodeF_eq_unmatched_iff]
  unfold decode
  iterate 15 refine ite_eq_unmatched_iff (fun hop => by simp [hop, decode0_ne_unmatched]) fun _ => ?_
  have hop : fieldOp w = 0xF#4 := by bv_omega
  simp [hop]

end

end Sys2Proof
end

section
/-! PROOFS. All instructions together: one case analysis of what `exec` answers, and what follows from it about the
registers, the stack, memory and the faults (spec/10_state.md R14 to R23, spec/60_exceptions.md R108 to R114). -/

namespace Sys2Proof.Machine

/-! ## What a register range leaves of the other fields -/

section
variable (s : State) (k : Nat) (bs : List Byte)

@[simp] theorem State.i_writeRegs : (s.writeRegs k bs).i = s.i := by rw [State.writeRegs_eq]
@[simp] theorem State.pc_writeRegs : (s.writeRegs k bs).pc = s.pc := by rw [State.writeRegs_eq]
@[simp] theorem State.stack_writeRegs : (s.writeRegs k bs).stack = s.stack := by rw [State.writeRegs_eq]
@[simp] theorem State.dt_writeRegs : (s.writeRegs k bs).dt = s.dt := by rw [State.writeRegs_eq]
@[simp] theorem State.st_writeRegs : (s.writeRegs k bs).st = s.st := by rw [State.writeRegs_eq]
@[simp] theorem State.mem_writeRegs : (s.writeRegs k bs).mem = s.mem := by rw [State.writeRegs_eq]
@[simp] theorem State.disp_writeRegs : (s.writeRegs k bs).disp = s.disp := by rw [State.writeRegs_eq]
@[simp] theorem State.draws_writeRegs : (s.writeRegs k bs).draws = s.draws := by rw [State.writeRegs_eq]

end

/-! ## What an instruction answers -/

theorem exec_rnd (x : Nibble) (kk : Byte) (s : State) :
    exec (.rnd x kk) s = writeAndNext x (Config.drawByte s.draws &&& kk) s.countDraw := rfl

/-- The instructions that write `pc` alone. -/
def transferPatterns : List Pattern := [.sys, .jp, .jpV0, .seByte, .sneByte, .seReg, .sneReg, .skp, .sknp]

/-- The instructions whose destination is Vx and that write no flag and nothing else. -/
def resultPatterns : List Pattern :=
  [.ldByte, .addByte, .ldReg, .orReg, .andReg, .xorReg, .ldVxDt, .ldVxK]

/-- The instructions whose destination is Vx and that write VF after it. -/
def flagPatterns : List Pattern := [.addReg, .sub, .subn, .shr, .shl]

/-- What instruction `i` can answer in the state `s`, with all that it writes. -/
inductive ExecCase (s : State) : Instr → Result → Prop
  | transfer {i : Instr} (a : Addr) (hi : i.pattern ∈ transferPatterns := by simp [Instr.pattern, transferPatterns]) :
      ExecCase s i (.next (s.setPc a))
  | ret : ExecCase s .ret (.next ((s.setStack s.stack.tail).setPc s.popped))
  | call (nnn : Addr) (hroom : s.stack.length < stackDepth) :
      ExecCase s (.call nnn) (.next ((s.setStack ((s.pc + 2#12) :: s.stack)).setPc nnn))
  | callFull (nnn : Addr) (hfull : stackDepth ≤ s.stack.length) :
      ExecCase s (.call nnn) (.fault (.stackOverflow s.pc))
  | keyOut {i : Instr} (x : Nibble) (hi : i = .skp x ∨ i = .sknp x) (hout : 0x0F < (s.readV x).toNat) :
      ExecCase s i (.fault (.keyIndexOutOfRange (s.readV x)))
  | result {i : Instr} (x : Nibble) (b : Byte) (hx : fieldX (encode i) = x := by simp [encode])
      (hi : i.pattern ∈ resultPatterns := by simp [Instr.pattern, resultPatterns]) :
      ExecCase s i (.next (s.writeV x b).nextInstr)
  | flagged {i : Instr} (x : Nibble) (b : Byte) (f : Bool)
      (hi : i.pattern ∈ flagPatterns := by simp [Instr.pattern, flagPatterns]) :
      ExecCase s i (.next (s.writeResultAndFlag x b f).nextInstr)
  | rnd (x : Nibble) (kk : Byte) :
      ExecCase s (.rnd x kk) (.next (s.countDraw.writeV x (Config.drawByte s.draws &&& kk)).nextInstr)
  | stalled (x : Nibble) : ExecCase s (.ldVxK x) (.next s)
  | index {i : Instr} (a : Addr) (hi : i.pattern ∈ [Pattern.ldI, .addI, .ldF] := by simp [Instr.pattern]) :
      ExecCase s i (.next (s.setI a).nextInstr)
  | delayTimer (x : Nibble) : ExecCase s (.ldDtVx x) (.next (s.setDt (s.readV x)).nextInstr)
  | soundTimer (x : Nibble) : ExecCase s (.ldStVx x) (.next (s.setSt (s.readV x)).nextInstr)
  | store {i : Instr} (bytes : List Byte) (m : Memory) (hm : storeBytes .wrap s.i.toNat bytes s.mem = .ok m)
      (hi : i.pattern ∈ [Pattern.ldB, .ldMemVx] := by simp [Instr.pattern]) :
      ExecCase s i (.next (s.setMem m).nextInstr)
  | load (x : Nibble) : ExecCase s (.ldVxMem x) (.next (s.writeRegs 0 (s.bytesAtI (x.toNat + 1))).nextInstr)
  | clear : ExecCase s .cls (.next (s.setDisp Display.clear).nextInstr)
  | draw (x y n : Nibble) :
      ExecCase s (.drw x y n) (.next (((s.setDisp (s.sprite x y (spriteBytes s n)).1).setFlag
        (s.sprite x y (spriteBytes s n)).2).nextInstr))

theorem ExecCase.of_exec {i : Instr} {s : State} {r : Result} (h : exec i s = r) (hc : ExecCase s i r) :
    ExecCase s i (exec i s) := h ▸ hc

/-- A key number up to 0x0F names a key. -/
theorem ExecCase.of_keySkip {i : Instr} {s : State} {x : Nibble} (hi : i = .skp x ∨ i = .sknp x) :
    ExecCase s i (exec i s) := by
  by_cases hout : 0x0F < (s.readV x).toNat
  · obtain rfl | rfl := hi
    · exact .of_exec (exec_skp_out hout) (.keyOut x (.inl rfl) hout)
    · exact .of_exec (exec_sknp_out hout) (.keyOut x (.inr rfl) hout)
  · obtain rfl | rfl := hi
    · exact .of_exec (exec_skp_of_key (k := ⟨_, Nat.lt_succ_of_le (Nat.not_lt.mp hout)⟩) rfl) (.transfer _)
    · exact .of_exec (exec_sknp_of_key (k := ⟨_, Nat.lt_succ_of_le (Nat.not_lt.mp hout)⟩) rfl) (.transfer _)

/-- The one case analysis of `exec`, faults included. -/
theorem exec_cases (i : Instr) (s : State) : ExecCase s i (exec i s) := by
  cases i with
  | sys | jp | jpV0 => exact .transfer _
  | seByte x kk => exact .of_exec (skipIfEqual_true x (.imm kk) s) (.transfer _)
  | sneByte x kk => exact .of_exec (skipIfEqual_false x (.imm kk) s) (.transfer _)
  | seReg x y => exact .of_exec (skipIfEqual_true x (.reg y) s) (.transfer _)
  | sneReg x y => exact .of_exec (skipIfEqual_false x (.reg y) s) (.transfer _)
  | skp => exact .of_keySkip (.inl rfl)
  | sknp => exact .of_keySkip (.inr rfl)
  | ret => exact .ret
  | call nnn =>
    rcases Nat.lt_or_ge s.stack.length stackDepth with hroom | hfull
    · exact .of_exec (exec_call_ok nnn s hroom) (.call nnn hroom)
    · exact .of_exec (exec_call_full nnn s hfull) (.callFull nnn hfull)
  | ldByte | addByte | ldReg | orReg | andReg | xorReg | ldVxDt => exact .result _ _
  | ldVxK x =>
    cases hk : s.lowestKey with
    | some k => exact .of_exec (exec_ldVxK_of_some hk) (.result x _)
    | none => exact .of_exec (exec_ldVxK_of_none hk) (.stalled x)
  | addReg | sub | subn | shr | shl => exact .flagged _ _ _
  | rnd x kk => exact .rnd x kk
  | ldI | addI | ldF => exact .index _
  | ldDtVx x => exact .delayTimer x
  | ldStVx x => exact .soundTimer x
  | ldB x =>
    obtain ⟨m, hm, h⟩ := exec_ldB x s
    exact .of_exec h (.store _ m hm)
  | ldMemVx x =>
    obtain ⟨m, hm, h⟩ := exec_ldMemVx x s
    exact .of_exec h (.store _ m hm)
  | ldVxMem x => exact .of_exec (exec_ldVxMem_bytesAtI x s) (.load x)
  | cls => exact .clear
  | drw x y n => exact .of_exec (exec_drw x y n s) (.draw x y n)

theorem ExecCase.of_next {i : Instr} {s t : State} (h : exec i s = .next t) : ExecCase s i (.next t) :=
  h ▸ exec_cases i s

/-! ## The invariant's clauses that an instruction could break -/

section
variable {i : Instr} {s t : State}

/-- Only a store writes memory, and it keeps the canonical form. -/
theorem exec_mem_wf (h : exec i s = .next t) (hwf : s.mem.wf = true) : t.mem.wf = true := by
  cases ExecCase.of_next h with
  | store bytes m hm => exact storeBytes_wf hwf hm
  | load => simpa using hwf
  | _ => exact hwf

/-- Only CALL makes the stack longer, and only where there is room (R19). -/
theorem exec_stack_bound (h : exec i s = .next t) (hle : s.stack.length ≤ stackDepth) :
    t.stack.length ≤ stackDepth := by
  cases ExecCase.of_next h with
  | call nnn hroom => exact hroom
  | ret => exact (List.tail_sublist _).length_le.trans hle
  | load => simpa using hle
  | _ => exact hle

end

/-! ## The statements -/

/-- Settles O38: every case of `exec` is a next state or one of the two faults. -/
theorem everyInstructionCompletesOrRaisesItsFault : Obligations.EveryInstructionCompletesOrRaisesItsFault := by
  intro i s
  have hc := exec_cases i s
  generalize exec i s = r at hc
  cases hc with
  | callFull nnn hfull => exact .inr (.inl ⟨nnn, rfl, hfull, rfl⟩)
  | keyOut x hi hout => exact .inr (.inr ⟨x, hi, hout, rfl⟩)
  | _ => exact .inl ⟨_, rfl⟩

/-- Settles O36: each case of `exec` changes at most the part that is named for its patterns. -/
theorem onlyTheNamedInstructionsWriteEachPart : Obligations.OnlyTheNamedInstructionsWriteEachPart := by
  intro i s t h
  cases ExecCase.of_next h with
  | index a hi => exact ⟨fun _ => hi, by simp⟩
  | store bytes m hm hi => simp [hi]
  | _ => simp [Instr.pattern]

/-! ### VF (R14) -/

/-- The six flag writers of R14. -/
def vfFlagPatterns : List Pattern := [.addReg, .sub, .subn, .shr, .shl, .drw]

theorem not_mem_vfFlagPatterns {p : Pattern} {l : List Pattern} (hp : p ∈ l)
    (hl : ∀ q ∈ l, q ∉ vfFlagPatterns := by decide) : p ∉ vfFlagPatterns := hl p hp

theorem flagByte_eq_or (f : Bool) : flagByte f = 0x01#8 ∨ flagByte f = 0x00#8 := by
  cases f
  · exact .inr rfl
  · exact .inl rfl

/-- A write of another register leaves VF alone. -/
theorem eq_vf_of_readV_writeV_ne {s : State} {x : Nibble} {b : Byte} (h : (s.writeV x b).readV vf ≠ s.readV vf) :
    x = vf := by
  by_contra hx
  exact h (by rw [State.readV_writeV, if_neg (Ne.symm hx)])

/-- A range of registers up to Vx reaches VF only with x = F. -/
theorem eq_vf_of_readV_load_ne {s : State} {x : Nibble}
    (h : (s.writeRegs 0 (s.bytesAtI (x.toNat + 1))).readV vf ≠ s.readV vf) : x = vf := by
  by_contra hx
  have hlt : x.toNat < 15 := by
    have : x ≠ 0xF#4 := hx
    bv_omega
  refine h ?_
  rw [State.readV_writeRegs _ _ _ (by simp; omega), if_pos (Nat.zero_le _), List.getElem?_eq_none, Option.getD_none]
  simpa [vf] using hlt

/-- Settles O35: VF is written as the flag, as the destination x = F, or not at all. -/
theorem vfIsWrittenOnlyAsFlagOrDestination : Obligations.VfIsWrittenOnlyAsFlagOrDestination := by
  refine ⟨State.readV_of_v_replicate rfl vf, fun i s t h => ?_⟩
  cases ExecCase.of_next h with
  | flagged x b f hi =>
    refine ⟨fun _ => ?_, fun _ => .inl ((show flagPatterns ⊆ _ by decide) hi)⟩
    simpa using flagByte_eq_or f
  | draw x y n =>
    refine ⟨fun _ => ?_, fun _ => .inl (by simp [Instr.pattern])⟩
    simpa using flagByte_eq_or _
  | result x b hx hi =>
    refine ⟨fun hf => absurd hf (not_mem_vfFlagPatterns hi), fun hne => .inr ⟨?_, ?_⟩⟩
    · exact hx.trans (eq_vf_of_readV_writeV_ne hne)
    · exact (show resultPatterns ⊆ _ by decide) hi
  | rnd x kk =>
    refine ⟨fun hf => absurd hf (by simp [Instr.pattern]), fun hne => .inr ⟨?_, by simp [Instr.pattern]⟩⟩
    exact (fieldX_wordXkk _ x kk).trans (eq_vf_of_readV_writeV_ne hne)
  | load x =>
    refine ⟨fun hf => absurd hf (by simp [Instr.pattern]), fun hne => .inr ⟨?_, by simp [Instr.pattern]⟩⟩
    exact (fieldX_wordXkk _ x _).trans (eq_vf_of_readV_load_ne hne)
  | transfer a hi | index a hi => exact ⟨fun hf => absurd hf (not_mem_vfFlagPatterns hi), fun hne => absurd rfl hne⟩
  | store bytes m hm hi => exact ⟨fun hf => absurd hf (not_mem_vfFlagPatterns hi), fun hne => absurd rfl hne⟩
  | _ => simp [Instr.pattern]

end Sys2Proof.Machine
end

section
/-! PROOFS. No instruction reads or writes the control state, ST or (but for DRW) the display (spec/40_decode_cycle.md
R69): an instruction commutes with replacing that part of the state. -/

namespace Sys2Proof.Machine

/-! ## Replacing what instructions do not read -/

/-- What instructions other than DRW read of `s`, with all the rest of `r`. -/
def State.over (s r : State) : State :=
  { r with v := s.v, i := s.i, pc := s.pc, stack := s.stack, dt := s.dt, mem := s.mem, key := s.key, draws := s.draws }

theorem SameReadable.eq_over {s s' : State} (h : SameReadable s s') : s' = s.over s' := by
  obtain ⟨hv, hi, hpc, hstack, hdt, hmem, hkey, hdraws⟩ := h
  simp only [State.over, ← hv, ← hi, ← hpc, ← hstack, ← hdt, ← hmem, ← hkey, ← hdraws]

theorem sameReadable_over (s r : State) : SameReadable s (s.over r) := ⟨rfl, rfl, rfl, rfl, rfl, rfl, rfl, rfl⟩

/-- The rest of an answer's next state replaced; a fault stays. -/
def overResult (r : State) : Result → Result
  | .next t => .next (t.over r)
  | .fault f => .fault f
  | .refused q => .refused q

/-- An instruction that ends in `finish` replaces the rest where its last write does. -/
theorem overResult_finish {α : Type} {g g' : α → State} {r : State} (hg : ∀ a, g' a = (g a).over r)
    (e : Except Fault α) : finish (e.map g') = overResult r (finish (e.map g)) := by
  cases e with
  | ok a => exact congrArg Host.Outcome.next (hg a)
  | error f => rfl

section
variable (s r : State)

theorem State.push_over (a : Addr) : (s.over r).push a = (s.push a).map (·.over r) := by
  rcases Nat.lt_or_ge s.stack.length stackDepth with hroom | hfull
  · rw [State.push_of_lt s a hroom]
    exact State.push_of_lt (s.over r) a hroom
  · rw [State.push_full s a hfull]
    exact State.push_full (s.over r) a hfull

theorem State.storeAtI_over (bytes : List Byte) :
    (s.over r).storeAtI bytes = (s.storeAtI bytes).map (·.over r) := by
  have hmap (e : Except Fault Memory) : e.map (s.over r).setMem = (e.map s.setMem).map (·.over r) := by
    cases e <;> rfl
  exact hmap _

theorem State.writeRegs_over (k : Nat) (bs : List Byte) :
    (s.over r).writeRegs k bs = (s.writeRegs k bs).over r := by
  induction bs generalizing s k with
  | nil => rfl
  | cons b bs ih => exact ih (s.writeV (BitVec.ofNat 4 k) b) (k + 1)

end

theorem except_map_map {α β γ : Type} (f : α → β) (g : β → γ) (e : Except Fault α) :
    (e.map f).map g = e.map fun a => g (f a) := by
  cases e <;> rfl

/-- R69 as a commuting square; CLS, DRW and LD ST, Vx are apart, because they write into the part that is replaced. -/
theorem exec_over {i : Instr} (hi : i.pattern ∉ [Pattern.cls, .drw, .ldStVx]) (s r : State) :
    exec i (s.over r) = overResult r (exec i s) := by
  cases i with
  | cls | drw | ldStVx => simp [Instr.pattern] at hi
  | call nnn =>
    simp only [exec, execCall]
    rw [show (s.over r).pc = s.pc from rfl, State.push_over, except_map_map]
    exact overResult_finish (fun _ => by rfl) _
  | skp x => exact overResult_finish (fun down => by cases down <;> rfl) (s.keyOf x)
  | sknp x => exact overResult_finish (fun down => by cases down <;> rfl) (s.keyOf x)
  | ldB x =>
    simp only [exec, execLdB]
    rw [State.storeAtI_over, except_map_map]
    exact overResult_finish (fun _ => by rfl) _
  | ldMemVx x =>
    simp only [exec, execLdMemVx]
    rw [State.storeAtI_over, except_map_map]
    exact overResult_finish (fun _ => by rfl) _
  | ldVxMem x =>
    rw [exec_ldVxMem, exec_ldVxMem, State.writeRegs_over]
    rfl
  | ldVxK x =>
    have hk : (s.over r).lowestKey = s.lowestKey := rfl
    cases h : s.lowestKey with
    | some k => rw [exec_ldVxK_of_some h, exec_ldVxK_of_some (hk.trans h)]; rfl
    | none => rw [exec_ldVxK_of_none h, exec_ldVxK_of_none (hk.trans h)]; rfl
  | seByte | sneByte | seReg | sneReg =>
    simp only [exec, execSeByte, execSneByte, execSeReg, execSneReg, skipIfEqual, State.skipWhen_eq]
    rfl
  | _ => rfl

/-- What an instruction other than CLS, DRW and LD ST, Vx leaves has the readable part of `exec i s`. -/
theorem exec_next_over {i : Instr} {s t : State} (hi : i.pattern ∉ [Pattern.cls, .drw, .ldStVx])
    (h : exec i s = .next t) (r : State) : exec i (s.over r) = .next (t.over r) := by
  rw [exec_over hi, h]
  rfl

theorem exec_fault_over {i : Instr} {s : State} {f : Fault} (hi : i.pattern ∉ [Pattern.cls, .drw, .ldStVx])
    (h : exec i s = .fault f) (r : State) : exec i (s.over r) = .fault f := by
  rw [exec_over hi, h]
  rfl

/-- With the same display as well, a sprite drawn is the same. -/
theorem State.sprite_over {s r : State} (hdisp : r.disp = s.disp) (x y : Nibble) (bytes : List Byte) :
    (s.over r).sprite x y bytes = s.sprite x y bytes := by
  rw [State.sprite_eq, State.sprite_eq, ← hdisp]
  rfl

theorem exec_drw_over {s r : State} (hdisp : r.disp = s.disp) (x y n : Nibble) :
    ∃ t t', exec (.drw x y n) s = .next t ∧ exec (.drw x y n) (s.over r) = .next t' ∧ SameReadable t t' ∧
      t'.disp = t.disp := by
  refine ⟨_, _, exec_drw x y n s, exec_drw x y n (s.over r), ?_, ?_⟩
  · rw [show spriteBytes (s.over r) n = spriteBytes s n from rfl, State.sprite_over hdisp]
    exact ⟨rfl, rfl, rfl, rfl, rfl, rfl, rfl, rfl⟩
  · exact congrArg Prod.fst (State.sprite_over hdisp x y (spriteBytes s n))

/-- Settles O37: apart from CLS, DRW and LD ST, Vx an instruction commutes with replacing what it does not read, and
what those three write into that part comes from what they read. -/
theorem noInstructionReadsOrWritesControlState : Obligations.NoInstructionReadsOrWritesControlState := by
  refine ⟨fun i s t h => ?_, fun i s s' hread hdisp => ?_⟩
  · obtain ⟨_, _, _, _, _, _, _, _, _, rfl⟩ := exec_writes h
    exact ⟨rfl, rfl, rfl, rfl, rfl, rfl, rfl, rfl, rfl, rfl, rfl⟩
  · obtain ⟨r, rfl⟩ : ∃ r, s' = s.over r := ⟨s', hread.eq_over⟩
    by_cases hi : i.pattern ∉ [Pattern.cls, .drw, .ldStVx]
    · refine ⟨fun t h => ⟨_, exec_next_over hi h r, sameReadable_over t r, ?_, ?_⟩, fun f h => exec_fault_over hi h r⟩
      · rintro (hp | hp) <;> simp [hp] at hi
      · intro hp
        simp [hp] at hi
    · cases i with
      | cls =>
        refine ⟨fun t h => ?_, nofun⟩
        cases h
        exact ⟨_, exec_cls _, ⟨rfl, rfl, rfl, rfl, rfl, rfl, rfl, rfl⟩, fun _ => rfl, nofun⟩
      | ldStVx x =>
        refine ⟨fun t h => ?_, nofun⟩
        cases h
        exact ⟨_, exec_ldStVx x _, ⟨rfl, rfl, rfl, rfl, rfl, rfl, rfl, rfl⟩, by simp [Instr.pattern], fun _ => rfl⟩
      | drw x y n =>
        obtain ⟨u, u', hu, hu', hsame, hd⟩ := exec_drw_over (hdisp rfl) x y n
        rw [hu]
        refine ⟨fun t h => ?_, nofun⟩
        cases h
        exact ⟨u', hu', hsame, fun _ => hd, nofun⟩
      | _ => simp [Instr.pattern] at hi

end Sys2Proof.Machine
end

section
/-! PROOFS. Statements about single instructions and pairs of them (spec/41_control_flow.md R72 and R74,
spec/42_alu.md R92, spec/43_index_memory.md R95, spec/45_display.md R106) and about memory (spec/20_memory.md R36, R44,
R46). -/

namespace Sys2Proof.Machine

/-! ## CALL and RET -/

/-- A CALL that completes had room on the stack. -/
theorem stack_of_exec_call {nnn : Addr} {s t : State} (h : exec (.call nnn) s = .next t) :
    t.stack = (s.pc + 2#12) :: s.stack := by
  rcases Nat.lt_or_ge s.stack.length stackDepth with hroom | hfull
  · rw [exec_call_ok nnn s hroom] at h
    cases h
    rfl
  · rw [exec_call_full nnn s hfull] at h
    cases h

/-- Settles O10: RET pops what CALL pushed. -/
theorem retReturnsAfterItsCall : Obligations.RetReturnsAfterItsCall := by
  intro nnn s t u w hcall hstack hret
  rw [stack_of_exec_call hcall] at hstack
  cases hret
  simp [State.popped, hstack]

/-! ## RND -/

theorem Frame.countDraw {writes : Part → Prop} {s t : State} (h : Frame writes s t) (hdraws : writes .draws) :
    Frame writes s t.countDraw := by
  obtain ⟨hv, hi, hstack, hdt, hst, hmem, hdisp, -, hcontrol⟩ := h
  exact ⟨hv, hi, hstack, hdt, hst, hmem, hdisp, fun hn => absurd hdraws hn, hcontrol⟩

theorem and_and_not (a b : Byte) : (a &&& b) &&& ~~~b = 0x00#8 := by
  rw [BitVec.and_assoc, BitVec.and_not_self]
  exact BitVec.and_zero

/-- Settles O19: one draw and one register write, of a byte cut down to the bits of kk. -/
theorem rndMasksAFreshByte : Obligations.RndMasksAFreshByte := by
  intro x kk s
  have hvx : ((s.countDraw.writeV x (Config.drawByte s.draws &&& kk)).nextInstr).readV x =
      (Config.drawByte s.draws &&& kk) := State.readV_writeV_self _ _ _
  refine ⟨decode_encode (.rnd x kk) rfl, _, exec_rnd x kk s, hvx, ?_, rfl, rfl, ?_⟩
  · rw [hvx, and_and_not]
  · exact (((Frame.refl _ s).countDraw (.inr rfl)).writeV (.inl rfl) _).setPc _

/-! ## LD F -/

/-- Settles O21: sixteen glyphs of five bytes lie below 0x050, so that the address is not cut and the byte at it is the
font's. -/
theorem ldFPointsAtTheGlyph : Obligations.LdFPointsAtTheGlyph := by
  intro x s t r hdigit h hr
  cases h
  have haddr : (glyphAddr (s.readV x)).toNat = 5 * (s.readV x).toNat := by
    rw [glyphAddr, BitVec.toNat_ofNat, fontBase]
    omega
  rw [State.nextInstr_eq, State.i_setPc, State.i_setI, haddr]
  exact Memory.resetByte_of_font (by omega)

/-! ## Data addresses -/

/-- Settles O22: below 4096 neither mode does anything, and this hardware takes `wrap`. -/
theorem dataAddressesWrap : Obligations.DataAddressesWrap :=
  ⟨fun _ _ hle => if_pos hle, fun ea hlt => ⟨addr_wrap ea, if_neg (Nat.not_le.mpr hlt)⟩, fun _ _ _ => dataAddr_iff⟩

/-! ## A store over the next word -/

/-- Settles O27: V0 and V1 land at the two addresses that the next fetch reads. -/
theorem storeIsSeenByTheNextFetch : Obligations.StoreIsSeenByTheNextFetch := by
  intro x s t hwf hi hx h
  obtain ⟨-, u, hu, hread, hpc, -⟩ := ldMemStoresV0ToVx x s
  obtain rfl : u = t := Host.Outcome.next.inj (hu.symm.trans h)
  have hbyte (r : Nibble) (hr : r.toNat ≤ 1) (a : Addr) (ha : a = s.i + r.setWidth 12) :
      Memory.read a.toNat u.mem = s.readV r := by
    refine hread hwf r (hr.trans hx) _ (dataAddr_iff.mpr ?_)
    rw [ha, BitVec.toNat_add, BitVec.toNat_setWidth_of_le (by decide), memSize]
  rw [State.fetch, hbyte 0#4 (by decide) _ (by simp [hpc, hi]), hbyte 1#4 (by decide) _ (by simp [hpc, hi])]

/-! ## Equal contents are equal data -/

/-- What a canonical list of one cell and more says of its first cell, and of the list after it. -/
theorem Memory.wfFrom_cons_iff {lo k : Nat} {b : Byte} {m : Memory} :
    Memory.wfFrom lo ((k, b) :: m) = true ↔
      lo ≤ k ∧ k < memSize ∧ b ≠ Memory.resetByte k ∧ Memory.wfFrom (k + 1) m = true := by
  simp [Memory.wfFrom, and_assoc]

theorem Memory.read_cons_of_ne {a k : Nat} {b : Byte} {m : Memory} (h : k ≠ a) :
    Memory.read a ((k, b) :: m) = Memory.read a m := if_neg h

theorem Memory.read_cons_same (k : Nat) (b : Byte) (m : Memory) : Memory.read k ((k, b) :: m) = b := if_pos rfl

/-- The first cell of a canonical list is one of every canonical list that reads alike: there that list has no reset
byte to give. -/
theorem Memory.not_wfFrom_succ {lo k : Nat} {b : Byte} {m m' : Memory} (h : Memory.wfFrom lo ((k, b) :: m) = true)
    (hread : ∀ a, a < memSize → Memory.read a ((k, b) :: m) = Memory.read a m') :
    ¬ Memory.wfFrom (k + 1) m' = true := by
  obtain ⟨-, hk, hb, -⟩ := Memory.wfFrom_cons_iff.mp h
  intro h'
  have hkb := hread k hk
  rw [Memory.read_cons_same, Memory.read_of_lt h' k.lt_succ_self] at hkb
  exact hb hkb

/-- So neither of two first cells lies below the other. -/
theorem Memory.first_le_of_read_eq {lo k k' : Nat} {b b' : Byte} {m m' : Memory}
    (h : Memory.wfFrom lo ((k, b) :: m) = true) (h' : Memory.wfFrom lo ((k', b') :: m') = true)
    (hread : ∀ a, a < memSize → Memory.read a ((k, b) :: m) = Memory.read a ((k', b') :: m')) : k' ≤ k := by
  refine Nat.not_lt.mp fun hlt => Memory.not_wfFrom_succ h hread ?_
  exact Memory.wfFrom_cons_iff.mpr ⟨hlt, (Memory.wfFrom_cons_iff.mp h').2⟩

theorem Memory.eq_of_read_eq {m m' : Memory} {lo : Nat} (h : Memory.wfFrom lo m = true)
    (h' : Memory.wfFrom lo m' = true) (hread : ∀ a, a < memSize → Memory.read a m = Memory.read a m') : m = m' := by
  induction m generalizing m' lo with
  | nil =>
    cases m' with
    | nil => rfl
    | cons c m' => exact absurd rfl (Memory.not_wfFrom_succ h' fun a ha => (hread a ha).symm)
  | cons c m ih =>
    obtain ⟨k, b⟩ := c
    cases m' with
    | nil => exact absurd rfl (Memory.not_wfFrom_succ h hread)
    | cons c' m' =>
      obtain ⟨k', b'⟩ := c'
      obtain rfl : k = k' := le_antisymm (Memory.first_le_of_read_eq h' h fun a ha => (hread a ha).symm)
        (Memory.first_le_of_read_eq h h' hread)
      obtain ⟨-, hk, -, hm⟩ := Memory.wfFrom_cons_iff.mp h
      obtain ⟨-, -, -, hm'⟩ := Memory.wfFrom_cons_iff.mp h'
      have hbb := hread k hk
      rw [Memory.read_cons_same, Memory.read_cons_same] at hbb
      rw [hbb, ih hm hm' fun a ha => ?_]
      by_cases hka : a ≤ k
      · rw [Memory.read_of_lt hm (Nat.lt_succ_of_le hka), Memory.read_of_lt hm' (Nat.lt_succ_of_le hka)]
      · simpa [Memory.read_cons_of_ne (show k ≠ a by omega)] using hread a ha

/-- Settles O28: `Memory.eq_of_read_eq` for lists that begin anywhere. -/
theorem canonicalMemoriesThatReadAlikeAreEqual : Obligations.CanonicalMemoriesThatReadAlikeAreEqual :=
  fun _ _ h h' hread => Memory.eq_of_read_eq h h' hread

/-! ## Drawing twice -/

/-- A drawing that leaves VF out of its coordinates leaves everything that the next one reads but the display. -/
theorem State.sprite_after_drw {x y n : Nibble} {s t : State} (hx : x ≠ vf) (hy : y ≠ vf)
    (h : Frame (fun p => p = .disp ∨ p = .v vf) s t) :
    t.readV x = s.readV x ∧ t.readV y = s.readV y ∧ spriteBytes t n = spriteBytes s n := by
  obtain ⟨hv, hi, -, -, -, hmem, -⟩ := h
  refine ⟨hv x (by simpa using hx), hv y (by simpa using hy), ?_⟩
  simp [spriteBytes, State.ea, hi, hmem]

/-- Settles O34: the second drawing flips the same pixels back, and one that the first lit is a hit. -/
theorem drawingTwiceRestoresTheDisplay : Obligations.DrawingTwiceRestoresTheDisplay := by
  intro x y n s t u hx hy hst htu
  obtain ⟨t', ht', htdisp, -, -, hframe⟩ := completes_of_exec_drw x y n s
  obtain rfl : t' = t := Host.Outcome.next.inj (ht'.symm.trans hst)
  obtain ⟨u', hu', hudisp, huflag, -, -⟩ := completes_of_exec_drw x y n t'
  obtain rfl : u' = u := Host.Outcome.next.inj (hu'.symm.trans htu)
  obtain ⟨hvx, hvy, hbytes⟩ := State.sprite_after_drw (n := n) hx hy hframe
  have hrestored : u'.disp = s.disp := Display.ext_grid fun px py hpx hpy => by
    rw [hudisp, State.sprite_pixel hpx hpy, hvx, hvy, hbytes, htdisp, State.sprite_pixel hpx hpy, Bool.xor_assoc,
      Bool.xor_self, Bool.xor_false]
  refine ⟨hrestored, fun ⟨px, py, hpx, hpy, hoff, hon⟩ => ?_⟩
  have hhit : (t'.sprite x y (spriteBytes t' n)).2 = true := State.sprite_hit_iff.mpr ⟨px, py, hpx, hpy, hon, by
    rw [← hudisp, hrestored, hoff]⟩
  rw [huflag, hhit]
  rfl

end Sys2Proof.Machine
end

section
/-! PROOFS. The batches step by step (spec/70_reset_and_hazards.md R127 to R129, spec/40_decode_cycle.md R64): what a
step is when its phase and the decoded word are known, and the statements about one step of the block. -/

namespace Sys2Proof.Machine

/-! ## One turn of a batch -/

section
variable {s t : State} {f : Fault} {left : Nat}

theorem approximateStep_of_next (h : execDecoded (decode s.fetch) s = .next t) :
    approximateStep left s = .next { t with phase := .batch left } := by
  cases hs : stalls (decode s.fetch) s <;> simp [approximateStep, decodeExecute, h, hs]

theorem approximateStep_of_fault (hf : s.fault = none) (h : execDecoded (decode s.fetch) s = .fault f) :
    approximateStep left s = .next { s with phase := .batch left, fault := some f } := by
  simp [approximateStep, decodeExecute, h, State.raise, hf]

theorem accurateStep_of_short (hd : s.budget < durationOf (decode s.fetch)) :
    accurateStep s = .next s.finishFrame := by
  simp [accurateStep, hd]

section
variable (hd : durationOf (decode s.fetch) ≤ s.budget)
include hd

theorem accurateStep_of_next (h : execDecoded (decode s.fetch) s = .next t)
    (hs : stalls (decode s.fetch) s = false) :
    accurateStep s = .next { t with budget := s.budget - durationOf (decode s.fetch) } := by
  simp [accurateStep, hd.not_gt, decodeExecute, h, hs, execDecoded_budget h]

theorem accurateStep_of_stall (h : execDecoded (decode s.fetch) s = .next t)
    (hs : stalls (decode s.fetch) s = true) :
    accurateStep s = .next { t with budget := s.budget - durationOf (decode s.fetch), phase := .frameEnd } := by
  simp [accurateStep, hd.not_gt, decodeExecute, h, hs, execDecoded_budget h]

theorem accurateStep_of_fault (hf : s.fault = none) (h : execDecoded (decode s.fetch) s = .fault f) :
    accurateStep s = .next { s with budget := s.budget - durationOf (decode s.fetch), fault := some f } := by
  simp [accurateStep, hd.not_gt, decodeExecute, h, State.raise, hf]

end

end

/-! ## The block's event, by its phase -/

section
variable {s : State} (hl : Live s) (hn : NoMove s)
include hl hn

theorem step_of_frameStart (hp : s.phase = .frameStart) : step s = .next (afterBoundary s).tickTimers.beginBatch := by
  simp [step_of_live hl hn, runningStep, hp]

theorem step_of_batch {left : Nat} (hp : s.phase = .batch (left + 1)) :
    step s = approximateStep left (afterBoundary s) := by
  simp [step_of_live hl hn, runningStep, hp]

theorem step_of_timed (hp : s.phase = .timed) : step s = accurateStep (afterBoundary s) := by
  simp [step_of_live hl hn, runningStep, hp]

theorem step_of_frameOver
    (hp : s.phase = .batch 0 ∨ s.phase = .frameEnd ∨ (s.phase = .timed ∧ s.budget < durationOf (decode s.fetch))) :
    step s = .next (afterBoundary s).finishFrame := by
  rcases hp with hp | hp | ⟨hp, hd⟩
  · simp [step_of_live hl hn, runningStep, hp]
  · simp [step_of_live hl hn, runningStep, hp]
  · exact (step_of_timed hl hn hp).trans (accurateStep_of_short hd)

end

/-! ## A block that runs always has a next step -/

/-- Nothing that decodes is refused. -/
theorem execDecoded_next_or_fault (d : Decoded) (s : State) :
    (∃ t, execDecoded d s = .next t) ∨ ∃ f, execDecoded d s = .fault f := by
  cases d with
  | unmatched w => exact .inl ⟨_, rfl⟩
  | instr i =>
    rcases everyInstructionCompletesOrRaisesItsFault i s with h | ⟨_, -, -, h⟩ | ⟨_, -, -, h⟩
    · exact .inl h
    · exact .inr ⟨_, h⟩
    · exact .inr ⟨_, h⟩

section
variable {s : State} (hf : s.fault = none)
include hf

theorem exists_approximateStep (left : Nat) : ∃ t, approximateStep left s = .next t := by
  rcases execDecoded_next_or_fault (decode s.fetch) s with ⟨t, h⟩ | ⟨f, h⟩
  · exact ⟨_, approximateStep_of_next h⟩
  · exact ⟨_, approximateStep_of_fault hf h⟩

theorem exists_accurateStep : ∃ t, accurateStep s = .next t := by
  rcases lt_or_ge s.budget (durationOf (decode s.fetch)) with hd | hd
  · exact ⟨_, accurateStep_of_short hd⟩
  · rcases execDecoded_next_or_fault (decode s.fetch) s with ⟨t, h⟩ | ⟨f, h⟩
    · cases hs : stalls (decode s.fetch) s with
      | false => exact ⟨_, accurateStep_of_next hd h hs⟩
      | true => exact ⟨_, accurateStep_of_stall hd h hs⟩
    · exact ⟨_, accurateStep_of_fault hd hf h⟩

end

theorem exists_step_of_live {s : State} (hl : Live s) (hn : NoMove s) : ∃ t, step s = .next t := by
  cases hp : s.phase with
  | frameStart => exact ⟨_, step_of_frameStart hl hn hp⟩
  | frameEnd => exact ⟨_, step_of_frameOver hl hn (.inr (.inl hp))⟩
  | timed => exact step_of_timed hl hn hp ▸ exists_accurateStep (s := afterBoundary s) hl.2
  | batch left =>
    cases left with
    | zero => exact ⟨_, step_of_frameOver hl hn (.inl hp)⟩
    | succ left => exact step_of_batch hl hn hp ▸ exists_approximateStep (s := afterBoundary s) hl.2 left

/-! ## The statements about one decode-execute step -/

/-- Settles O39: the word fetched is the two bytes, and a fault is raised on a block that has none marked. -/
theorem stepRunsTheDecodedInstruction : Obligations.StepRunsTheDecodedInstruction := by
  intro s i left hl hn hp hdecode
  have hd : decode (afterBoundary s).fetch = .instr i := hdecode
  rw [step_of_batch hl hn hp]
  refine ⟨fun t h => approximateStep_of_next ?_, fun f h => approximateStep_of_fault hl.2 ?_⟩
  · rw [hd]
    exact h
  · rw [hd]
    exact h

/-- Settles O4: the decoder's chain of tests leaves the listed words over, and such a word is a write of `pc`. -/
theorem unmatchedWordsAreTheListedAndOnlyAdvancePc : Obligations.UnmatchedWordsAreTheListedAndOnlyAdvancePc := by
  refine ⟨fun w => decode_eq_unmatched_iff, fun w s => ⟨rfl, _, rfl, rfl, (Frame.refl _ s).setPc _⟩, ?_⟩
  intro s left hl hn hp hdecode
  rw [step_of_batch hl hn hp, approximateStep_of_next (t := (afterBoundary s).nextInstr)]
  · rfl
  · rw [afterBoundary_fetch, hdecode]
    rfl

/-- Settles O40: one turn of the loop for each outcome of the instruction. -/
theorem accurateBatchRunsWhatFitsTheBudget : Obligations.AccurateBatchRunsWhatFitsTheBudget := by
  intro s hl hn hp
  rw [step_of_timed hl hn hp]
  refine ⟨fun hd => accurateStep_of_short hd, fun hd => ⟨fun t h hs => ?_, fun t h hs => ?_, fun f h => ?_⟩⟩
  · exact accurateStep_of_next (s := afterBoundary s) hd h ((stalls_afterBoundary _ s).trans hs)
  · exact accurateStep_of_stall (s := afterBoundary s) hd h ((stalls_afterBoundary _ s).trans hs)
  · exact accurateStep_of_fault (s := afterBoundary s) hd hl.2 h

/-- Settles O41: a duration is that of the pattern, which `dur_pos` and `dur_le` bound. -/
theorem durationsAreByPatternAndFitAFrame : Obligations.DurationsAreByPatternAndFitAFrame :=
  ⟨fun _ _ h => congrArg dur h, fun i => ⟨dur_pos i.pattern, dur_le i.pattern⟩,
    fun w _ => ⟨rfl, durationOf_pos (.unmatched w)⟩⟩

/-! ## The statements about the two ends of a frame -/

theorem replenish_eq_min (b : Rat) : replenish b = min (b + frameUs) frameUs := by
  rw [replenish, min_def]

/-- Settles O43: the fields of `State.beginFrame_eq`, mode by mode. -/
theorem frameBeginsWithTimersAndBatch : Obligations.FrameBeginsWithTimersAndBatch := by
  intro s hl hn hp
  refine ⟨_, step_of_frameStart hl hn hp, ?_⟩
  rw [State.beginFrame_eq]
  refine ⟨tick_toNat s.dt, tick_toNat s.st, fun hmode => ?_, fun hmode => ?_, rfl⟩
  · simp [hmode, batchSize]
  · simp [hmode, replenish_eq_min, frameUs]

/-- Settles O44: each end of a frame is `State.finishFrame`, whose fields are those of `State.finishFrame_eq`. -/
theorem frameEndsWithDisplayAndSound : Obligations.FrameEndsWithDisplayAndSound := by
  intro s hl hn hp
  refine ⟨_, step_of_frameOver hl hn hp, ?_⟩
  rw [State.finishFrame_eq]
  exact ⟨rfl, rfl, fun hsame => if_pos hsame.symm, fun hchange => if_neg hchange.symm, rfl⟩

/-! ## The statements about a step without a move of the host -/

/-- Settles O48: outside `Running`, with no fault marked, the block's event is the state it began in. -/
theorem nothingHappensWhileNotRunning : Obligations.NothingHappensWhileNotRunning := by
  intro s hf hr hn
  rw [step_of_noMove hn, blockStep, afterBoundary_fault, hf]
  cases hrun : s.run with
  | running => exact absurd hrun hr
  | unloaded | paused => simp [hrun]

/-- Settles O47: of all events only a move of the host writes those fields. -/
theorem onlyTheHostChangesKeysModeAndProgram : Obligations.OnlyTheHostChangesKeysModeAndProgram := by
  intro s t hn h
  cases step_cases h with
  | move op rest hi => exact absurd hn (by simp [NoMove, hi])
  | idle hn hf hr ht | approximateFault hn hl left hp f he ht | accurateFault hn hl hp hd f he ht =>
    subst ht
    exact ⟨rfl, rfl, rfl, rfl, rfl⟩
  | frameStart hn hl hp ht =>
    rw [ht, State.beginFrame_eq]
    exact ⟨rfl, rfl, rfl, rfl, rfl⟩
  | frameEnd hn hl hp ht =>
    rw [ht, State.finishFrame_eq]
    exact ⟨rfl, rfl, rfl, rfl, rfl⟩
  | approximate hn hl left hp u he ht | accurate hn hl hp hd u he ht | accurateStall hn hl hp hd u he ht =>
    obtain ⟨_, _, _, _, _, _, _, _, _, rfl⟩ := execDecoded_writes he
    subst ht
    exact ⟨rfl, rfl, rfl, rfl, rfl⟩

end Sys2Proof.Machine
end

section
/-! PROOFS. What a move of the host can do (spec/70_reset_and_hazards.md R124 to R137), and the statements about one
move. -/

namespace Sys2Proof.Machine

/-! ## What a move of the host can do -/

/-- What a move of the host leaves of the state `s`, refusals included. -/
inductive MoveCase (s : State) : State → Prop
  | refused : MoveCase s s
  /-- `reset()`, and `load` and `setTimingMode` with their reset -/
  | reset (rom : List Byte) (accurate : Bool) (hrom : s.rom.length ≤ maxRom → rom.length ≤ maxRom) :
      MoveCase s ({ s with rom := rom, accurate := accurate } : State).hostReset
  | mode (accurate : Bool) (hrun : s.run = .unloaded) : MoveCase s { s with accurate := accurate }
  | rate (clockHz : Nat) (hpos : 0 < clockHz) : MoveCase s { s with clockHz := clockHz }
  /-- `pause` and `stop`: the life-cycle state changes, and the frame is abandoned -/
  | lifeCycle (run : Run) : MoveCase s { s with run := run, phase := .frameStart }
  | keys (key : Vector Bool 16) : MoveCase s { s with key := key }

theorem MoveCase.of_hostOp {s t : State} {op : HostOp} (h : s.hostOp op = t) (hc : MoveCase s t) :
    MoveCase s (s.hostOp op) := h ▸ hc

theorem MoveCase.of_pause (s : State) (flag : Bool) : MoveCase s (s.hostPause flag) := by
  unfold State.hostPause
  split
  · exact .lifeCycle .paused
  · exact .lifeCycle .running
  all_goals exact .refused

/-- The one case analysis of the host's moves. -/
theorem hostOp_cases (s : State) (op : HostOp) : MoveCase s (s.hostOp op) := by
  cases op with
  | load rom =>
    rcases Nat.lt_or_ge maxRom rom.length with hlong | hfits
    · exact .of_hostOp (State.hostLoad_of_too_long hlong) .refused
    · exact .of_hostOp (State.hostLoad_of_fits hfits) (.reset rom s.accurate fun _ => hfits)
  | reset => exact .reset s.rom s.accurate id
  | setTimingMode b =>
    by_cases hrun : s.run = .unloaded
    · exact .of_hostOp (State.hostSetTimingMode_of_unloaded hrun b) (.mode b hrun)
    · exact .of_hostOp (State.hostSetTimingMode_of_loaded hrun b) (.reset s.rom b id)
  | setClockRate hz =>
    rcases lt_or_ge 0 hz with hpos | hneg
    · exact .of_hostOp (State.hostSetClockRate_of_pos hpos) (.rate hz.toNat (by omega))
    · exact .of_hostOp (State.hostSetClockRate_of_not_pos hneg) .refused
  | pause flag => exact .of_pause s flag
  | stop => exact .of_pause s true
  | setKey index b =>
    by_cases hkey : 0 ≤ index ∧ index ≤ 15
    · exact .of_hostOp (if_pos hkey) (.keys _)
    · exact .of_hostOp (if_neg hkey) .refused
  | pollKeys keys => exact .keys keys

/-! ## The statements about moves of the host -/

/-- Settles O50: at a boundary with a move the step is that move, as `step_of_move` has it. -/
theorem hostMoveTakesEffectBetweenSteps : Obligations.HostMoveTakesEffectBetweenSteps :=
  fun _ _ _ h => step_of_move h

/-- Settles O54: the cases of `State.hostPause`, by the life-cycle state. -/
theorem pauseAndStopMoveTheLifeCycle : Obligations.PauseAndStopMoveTheLifeCycle := by
  refine fun s => ⟨fun hrun => ?_, fun hrun => ?_, fun hrun => ?_, fun hrun => ?_, rfl⟩
  · simp [State.hostOp, State.hostPause, hrun]
  · simp [State.hostOp, State.hostPause, hrun]
  · cases h : s.run with
    | running => exact absurd h hrun
    | paused | unloaded => simp [State.hostOp, State.hostPause, h]
  · cases h : s.run with
    | paused => exact absurd h hrun
    | running | unloaded => simp [State.hostOp, State.hostPause, h]

/-- Settles O52: every field that `reset()` writes has its value in `State.reset` already. -/
theorem resetIsConstructionAndAnEmptyLoad : Obligations.ResetIsConstructionAndAnEmptyLoad := ⟨rfl, rfl⟩

/-! ## The fault mark -/

theorem hostOp_fault (s : State) (op : HostOp) : (s.hostOp op).fault = s.fault := by
  have hc := hostOp_cases s op
  generalize s.hostOp op = t at hc
  cases hc with
  | reset rom accurate hrom => rw [State.hostReset_eq]
  | _ => rfl

/-- Settles O42: the block's own event stops on the mark, so that only a move of the host has a next state, and no move
writes the mark. -/
theorem aMarkedFaultStopsTheBlock : Obligations.AMarkedFaultStopsTheBlock := by
  intro s f hf
  have hmoves (u : State) (hu : u.fault = some f) (op : HostOp) : (u.hostOp op).fault = some f :=
    (hostOp_fault u op).trans hu
  refine ⟨fun hn => ?_, fun t h => ?_, hmoves s hf, fun g => ?_⟩
  · rw [step_of_noMove hn, blockStep, afterBoundary_fault, hf]
  · rcases noMove_or_move s with hn | ⟨op, rest, hi⟩
    · rw [step_of_noMove hn, blockStep, afterBoundary_fault, hf] at h
      cases h
    · rw [step_of_move hi] at h
      cases h
      exact hmoves (s.setInputs rest) hf op
  · simp [State.raise, hf]

end Sys2Proof.Machine
end

section
/-! PROOFS. The invariant (spec/10_state.md, spec/70_reset_and_hazards.md R130, R132): each event keeps it, and it holds
after construction and after reset. -/

namespace Sys2Proof.Machine

/-! ## The invariant, event by event -/

section
variable {s : State}

theorem Inv.setInputs (h : Inv s) (l : List (Option HostOp)) : Inv (s.setInputs l) := { h with }

theorem Inv.afterBoundary (h : Inv s) : Inv (afterBoundary s) := h.setInputs _

theorem inv_hostReset (hrom : s.rom.length ≤ maxRom) (hclock : 0 < s.clockHz) : Inv s.hostReset := by
  rw [State.hostReset_eq]
  exact {
    memWf := Memory.wf_ofRom hrom
    stackBound := Nat.zero_le _
    romBound := hrom
    clockPos := hclock
    budgetNonneg := le_refl _
    budgetLe := frameUs_pos.le
    idlePhase := fun _ => rfl
    timedMode := by simp
    batchMode := by simp }

theorem Inv.hostOp (h : Inv s) (op : HostOp) : Inv (s.hostOp op) := by
  have hc := hostOp_cases s op
  generalize s.hostOp op = t at hc
  cases hc with
  | refused => exact h
  | reset rom accurate hrom => exact inv_hostReset (hrom h.romBound) h.clockPos
  | mode accurate hrun =>
    have hphase : s.phase = .frameStart := h.idlePhase (by simp [hrun])
    exact { h with timedMode := by simp [hphase], batchMode := by simp [hphase] }
  | rate clockHz hpos => exact { h with clockPos := hpos }
  | lifeCycle run => exact { h with idlePhase := fun _ => rfl, timedMode := by simp, batchMode := by simp }
  | keys key => exact { h with }

theorem Inv.setFault (h : Inv s) (f : Option Fault) : Inv { s with fault := f } := { h with }

theorem Inv.setBudget (h : Inv s) {b : Rat} (hnonneg : 0 ≤ b) (hle : b ≤ frameUs) : Inv { s with budget := b } :=
  { h with budgetNonneg := hnonneg, budgetLe := hle }

/-- While the block runs, a phase is bound to the timing mode only. -/
theorem Inv.setPhase (h : Inv s) (hrun : s.run = .running) {p : Phase}
    (htimed : p = .timed ∨ p = .frameEnd → s.accurate = true) (hbatch : ∀ n, p = .batch n → s.accurate = false) :
    Inv { s with phase := p } :=
  { h with idlePhase := fun hidle => absurd hrun hidle, timedMode := htimed, batchMode := hbatch }

/-- What is left of the budget after an instruction that fits it (R129). -/
theorem Inv.charge_bounds (h : Inv s) {d : Decoded} (hd : durationOf d ≤ s.budget) :
    0 ≤ s.budget - durationOf d ∧ s.budget - durationOf d ≤ frameUs :=
  ⟨sub_nonneg.mpr hd, (sub_le_self _ (durationOf_pos d).le).trans h.budgetLe⟩

theorem Inv.beginFrame (h : Inv s) (hrun : s.run = .running) : Inv s.tickTimers.beginBatch := by
  rw [State.beginFrame_eq]
  cases hmode : s.accurate with
  | true =>
    exact { h with
      budgetNonneg := replenish_nonneg h.budgetNonneg
      budgetLe := replenish_le s.budget
      idlePhase := fun hidle => absurd hrun hidle
      timedMode := fun _ => rfl
      batchMode := by simp }
  | false =>
    exact { h with
      idlePhase := fun hidle => absurd hrun hidle
      timedMode := by simp
      batchMode := fun _ _ => rfl }

theorem Inv.finishFrame (h : Inv s) : Inv s.finishFrame := by
  rw [State.finishFrame_eq]
  exact { h with idlePhase := fun _ => rfl, timedMode := by simp, batchMode := by simp }

section
variable {d : Decoded} {t : State} (he : execDecoded d s = .next t)
include he

theorem execDecoded_run : t.run = s.run := by
  obtain ⟨_, _, _, _, _, _, _, _, _, rfl⟩ := execDecoded_writes he
  rfl

theorem execDecoded_accurate : t.accurate = s.accurate := by
  obtain ⟨_, _, _, _, _, _, _, _, _, rfl⟩ := execDecoded_writes he
  rfl

theorem execDecoded_mem_wf (hwf : s.mem.wf = true) : t.mem.wf = true := by
  cases d with
  | instr i => exact exec_mem_wf he hwf
  | unmatched w =>
    cases he
    exact hwf

theorem execDecoded_stack_bound (hle : s.stack.length ≤ stackDepth) : t.stack.length ≤ stackDepth := by
  cases d with
  | instr i => exact exec_stack_bound he hle
  | unmatched w =>
    cases he
    exact hle

theorem Inv.execDecoded (h : Inv s) : Inv t := by
  have hwf := execDecoded_mem_wf he h.memWf
  have hbound := execDecoded_stack_bound he h.stackBound
  obtain ⟨_, _, _, _, _, _, _, _, _, rfl⟩ := execDecoded_writes he
  exact { h with memWf := hwf, stackBound := hbound }

end

end

/-! ## The statements about the invariant -/

/-- Settles O58: each event of `step_cases` keeps the invariant. -/
theorem stepKeepsTheInvariant : Obligations.StepKeepsTheInvariant := by
  intro s t h hstep
  cases step_cases hstep with
  | move op rest hi ht => exact ht ▸ (h.setInputs rest).hostOp op
  | idle hn hf hr ht => exact ht ▸ h.afterBoundary
  | frameStart hn hl hp ht => exact ht ▸ h.afterBoundary.beginFrame hl.1
  | frameEnd hn hl hp ht => exact ht ▸ h.afterBoundary.finishFrame
  | approximate hn hl left hp u he ht =>
    subst ht
    exact (h.afterBoundary.execDecoded he).setPhase ((execDecoded_run he).trans hl.1) (by simp)
      fun _ _ => (execDecoded_accurate he).trans (h.batchMode _ hp)
  | approximateFault hn hl left hp f he ht =>
    subst ht
    exact (h.afterBoundary.setPhase (p := .batch left) hl.1 (by simp) fun _ _ => h.batchMode _ hp).setFault _
  | accurate hn hl hp hd u he ht =>
    subst ht
    obtain ⟨hnonneg, hle⟩ := h.charge_bounds hd
    exact (h.afterBoundary.execDecoded he).setBudget hnonneg hle
  | accurateStall hn hl hp hd u he ht =>
    subst ht
    obtain ⟨hnonneg, hle⟩ := h.charge_bounds hd
    exact ((h.afterBoundary.execDecoded he).setBudget hnonneg hle).setPhase ((execDecoded_run he).trans hl.1)
      (fun _ => (execDecoded_accurate he).trans (h.timedMode (.inl hp))) (by simp)
  | accurateFault hn hl hp hd f he ht =>
    subst ht
    obtain ⟨hnonneg, hle⟩ := h.charge_bounds hd
    exact (h.afterBoundary.setBudget hnonneg hle).setFault _

theorem clockHzInit_pos : 0 < clockHzInit := by
  unfold clockHzInit
  split
  · next h => exact h
  · exact Nat.one_pos

/-- Settles O59: both are what a `reset()` with no program leaves, but for the life-cycle state. -/
theorem resetHasTheInvariant : Obligations.ResetHasTheInvariant := by
  have h : Inv State.reset := inv_hostReset (s := State.reset) (Nat.zero_le _) clockHzInit_pos
  exact ⟨h, { h with idlePhase := fun _ => rfl }⟩

end Sys2Proof.Machine
end

section
/-! PROOFS. Ways for a program to run: the boot by moves of the host (spec/70_reset_and_hazards.md R126), and
`withFetchWord` (log entry 2). -/

namespace Sys2Proof.Machine

/-! ## Boot (R126) -/

theorem run_succ_of_step {s t : State} (h : step s = .next t) (k : Nat) :
    Host.Core.run core (k + 1) s = Host.Core.run core k t := by
  simp [Host.Core.run, show core.step s = .next t from h]

theorem hostReset_setInputs (s : State) (l : List (Option HostOp)) :
    (s.setInputs l).hostReset = s.hostReset.setInputs l := by
  simp only [State.hostReset_eq]
  rfl

/-- A move neither reads nor writes the moves to come. -/
theorem hostOp_setInputs (s : State) (l : List (Option HostOp)) (op : HostOp) :
    (s.setInputs l).hostOp op = (s.hostOp op).setInputs l := by
  cases op with
  | load rom =>
    simp only [State.hostOp, State.hostLoad]
    split
    · exact hostReset_setInputs { s with rom := rom } l
    · rfl
  | reset => exact hostReset_setInputs s l
  | setTimingMode b =>
    simp only [State.hostOp, State.hostSetTimingMode, State.run_setInputs]
    split
    · rfl
    all_goals exact hostReset_setInputs { s with accurate := b } l
  | setClockRate hz =>
    simp only [State.hostOp, State.hostSetClockRate]
    split <;> rfl
  | pause flag =>
    simp only [State.hostOp, State.hostPause, State.run_setInputs]
    split <;> rfl
  | stop =>
    simp only [State.hostOp, State.hostPause, State.run_setInputs]
    split <;> rfl
  | setKey index b =>
    simp only [State.hostOp, State.hostSetKey]
    split <;> rfl
  | pollKeys keys => rfl

/-- Moves of the host in a row are as many steps, and the block does nothing between them. -/
theorem run_moves (ops : List HostOp) (rest : List (Option HostOp)) (s : State) :
    Host.Core.run core ops.length (s.setInputs (ops.map some ++ rest)) =
      .next ((ops.foldl State.hostOp s).setInputs rest) := by
  induction ops generalizing s with
  | nil => rfl
  | cons op ops ih =>
    rw [List.length_cons, run_succ_of_step (step_of_move rfl)]
    refine Eq.trans ?_ (ih (s.hostOp op))
    rw [← hostOp_setInputs]
    rfl

/-- Settles O56: the four moves one after the other, each accepted. -/
theorem bootBringsAProgramToRun : Obligations.BootBringsAProgramToRun := by
  intro hz rom rest hpos hfits
  refine ⟨_, run_moves [.setTimingMode false, .setClockRate hz, .load rom, .pause false] rest State.constructed, ?_⟩
  simp only [List.foldl, State.hostOp]
  rw [State.hostSetTimingMode_of_unloaded rfl, State.hostSetClockRate_of_pos hpos, State.hostLoad_of_fits hfits,
    State.hostReset_eq]
  exact ⟨rfl, rfl, rfl, rfl, Int.toNat_of_nonneg hpos.le, rfl, rfl, rfl,
    fun _ hj => Memory.read_ofRom_program hfits hj⟩

/-! ## `withFetchWord` (log entry 2) -/

theorem addr_ne_succ (a : Addr) : a.toNat ≠ (a + 1#12).toNat := by
  bv_omega

/-- The word placed is the word fetched (R37). -/
theorem fetch_placeWord {s : State} (hwf : s.mem.wf = true) (first second : Byte) :
    (s.placeWord first second).fetch = first ++ second := by
  have hfirst : (Memory.write s.pc.toNat first s.mem).wf = true := Memory.wf_write first s.pc.isLt hwf
  simp only [State.fetch, State.placeWord, State.pc_setMem, State.mem_setMem]
  rw [Memory.read_write_of_ne second _ (addr_ne_succ s.pc), Memory.read_write_self first hwf,
    Memory.read_write_self second hfirst]

theorem decode_tableWord {nbits w : Nat} {i : Instr} (h : decodeTableWord nbits w = some i) :
    decode (tableWord nbits w) = .instr i := by
  rw [decodeTableWord, decodeBytes, bytes_append] at h
  cases hd : decode (tableWord nbits w) with
  | instr j => rw [hd] at h; exact congrArg Decoded.instr (Option.some.inj h)
  | unmatched u => rw [hd] at h; cases h

theorem fetch_withFetchWord {s : State} (hwf : s.mem.wf = true) (nbits w : Nat) :
    (s.withFetchWord nbits w).fetch = tableWord nbits w :=
  (fetch_placeWord hwf _ _).trans (bytes_append _)

/-- Settles O57: the batch has one step left, and that step fetches the word placed. -/
theorem withFetchWordRunsTheWord : Obligations.WithFetchWordRunsTheWord := by
  intro s w i hdecode hwf
  have hfetch := fetch_withFetchWord hwf 16 w
  refine ⟨fun t h => ?_, rfl, rfl, ?_⟩
  · rw [step_of_batch ⟨rfl, rfl⟩ (.inr ⟨s.inputs, rfl⟩) rfl]
    refine approximateStep_of_next ?_
    rw [afterBoundary_fetch, hfetch, decode_tableWord hdecode]
    exact h
  · rw [hfetch, tableWord, BitVec.toNat_ofNat]
    omega

end Sys2Proof.Machine
end

section
/-! PROOFS. Runs of the block (spec/70_reset_and_hazards.md R128, R130, R141): an approximate frame from its start to
the next, the time that a frame executes, and the halt idiom. -/

namespace Sys2Proof.Machine

/-! ## An approximate frame takes its K steps (R128) -/

/-- From `s`, inside an approximate frame, the frame came round to `t`: its display is published, with at most the
report of the sound beside it. -/
structure FrameOver (s t : State) : Prop where
  phase : t.phase = .frameStart
  live : Live t
  clockHz : t.clockHz = s.clockHz
  published : Output.displayUpdate t.disp ∈ t.outputs
  more : s.outputs.length < t.outputs.length
  atMostTwo : t.outputs.length ≤ s.outputs.length + 2

/-- Within `k` steps from `s` a model fault is marked. -/
def FaultsWithin (k : Nat) (s : State) : Prop :=
  ∃ (j : Nat) (u : State) (f : Fault), j ≤ k ∧ Host.Core.run core j s = .next u ∧ u.fault = some f

theorem FaultsWithin.of_step {k : Nat} {s t : State} (hstep : step s = .next t) (h : FaultsWithin k t) :
    FaultsWithin (k + 1) s := by
  obtain ⟨j, u, f, hj, hrun, hu⟩ := h
  exact ⟨j + 1, u, f, Nat.succ_le_succ hj, (run_succ_of_step hstep j).trans hrun, hu⟩

theorem FaultsWithin.of_marked {k : Nat} {s : State} {f : Fault} (h : s.fault = some f) : FaultsWithin k s :=
  ⟨0, s, f, Nat.zero_le k, rfl, h⟩

theorem frameOver_finishFrame {s : State} (hl : Live s) : FrameOver s s.finishFrame := by
  rw [State.finishFrame_eq]
  refine ⟨rfl, hl, rfl, ?_, ?_, ?_⟩
  all_goals
    dsimp only
    split <;> simp

/-- After `left + 1` steps from `s` its frame is over, unless a fault was marked before that. -/
def FrameEnds (left : Nat) (s : State) : Prop :=
  (∃ t, Host.Core.run core (left + 1) s = .next t ∧ FrameOver s t) ∨ FaultsWithin left s

theorem FrameEnds.of_step {left : Nat} {s t : State} (hstep : step s = .next t) (hclock : t.clockHz = s.clockHz)
    (houtputs : t.outputs = s.outputs) (h : FrameEnds left t) : FrameEnds (left + 1) s := by
  refine h.imp ?_ (.of_step hstep)
  rintro ⟨u, hrun, hover⟩
  exact ⟨u, (run_succ_of_step hstep _).trans hrun, { hover with
    clockHz := hover.clockHz.trans hclock
    more := houtputs ▸ hover.more
    atMostTwo := houtputs ▸ hover.atMostTwo }⟩

/-- A batch's last step is the end of its frame, and every step before it executes an instruction or marks a fault. -/
theorem frameEnds_of_batch (left : Nat) {s : State} (hl : Live s) (hi : s.inputs = []) (hp : s.phase = .batch left) :
    FrameEnds left s := by
  induction left generalizing s with
  | zero =>
    have hstep := step_of_frameOver hl (.inl hi) (.inl hp)
    rw [afterBoundary_of_nil hi] at hstep
    exact .inl ⟨_, run_succ_of_step hstep 0, frameOver_finishFrame hl⟩
  | succ left ih =>
    have hstep := step_of_batch hl (.inl hi) hp
    rw [afterBoundary_of_nil hi] at hstep
    rcases execDecoded_next_or_fault (decode s.fetch) s with ⟨u, he⟩ | ⟨f, he⟩
    · rw [approximateStep_of_next he] at hstep
      obtain ⟨_, _, _, _, _, _, _, _, _, rfl⟩ := execDecoded_writes he
      exact .of_step hstep rfl rfl (ih hl hi rfl)
    · rw [approximateStep_of_fault hl.2 he] at hstep
      exact .inr (.of_step hstep (.of_marked rfl))

/-- Settles O45: the frame's first step sets up a batch of K steps, and `frameEnds_of_batch` runs it out. -/
theorem approximateFrameTakesKSteps : Obligations.ApproximateFrameTakesKSteps := by
  intro s hl hi hp hmode
  have hstep := step_of_frameStart hl (.inl hi) hp
  rw [afterBoundary_of_nil hi, State.beginFrame_eq] at hstep
  have hends : FrameEnds (s.clockHz / 60 + 1) s :=
    .of_step hstep rfl rfl (frameEnds_of_batch _ hl hi (by simp [hmode, batchSize]))
  refine hends.imp_left ?_
  rintro ⟨t, hrun, hover⟩
  exact ⟨t, hrun, hover.phase, hover.live, hover.clockHz, hover.published, hover.more, hover.atMostTwo⟩

/-! ## The time a frame executes (R130) -/

theorem charge_of_move {s : State} {op : HostOp} {rest : List (Option HostOp)} (h : s.inputs = some op :: rest) :
    charge s = 0 := by
  simp [charge, h]

theorem charge_of_noMove {s : State} (hn : NoMove s) :
    charge s =
      if s.run = .running ∧ s.fault = none ∧ s.phase = .timed ∧ durationOf (decode s.fetch) ≤ s.budget
      then durationOf (decode s.fetch) else 0 := by
  rcases hn with h | ⟨rest, h⟩ <;> simp [charge, h]

theorem charge_of_executes {s : State} (hn : NoMove s) (hl : Live s) (hp : s.phase = .timed)
    (hd : durationOf (decode s.fetch) ≤ s.budget) : charge s = durationOf (decode s.fetch) := by
  rw [charge_of_noMove hn, if_pos ⟨hl.1, hl.2, hp, hd⟩]

theorem charge_of_phase_ne {s : State} (hp : s.phase ≠ .timed) : charge s = 0 := by
  rcases noMove_or_move s with hn | ⟨op, rest, hi⟩
  · simp [charge_of_noMove hn, hp]
  · exact charge_of_move hi

theorem charge_nonneg (s : State) : 0 ≤ charge s := by
  rcases noMove_or_move s with hn | ⟨op, rest, hi⟩
  · rw [charge_of_noMove hn]
    split
    · exact (durationOf_pos _).le
    · exact le_refl _
  · exact (charge_of_move hi).ge

theorem charge_le_budget {s : State} (h : Inv s) : charge s ≤ s.budget := by
  rcases noMove_or_move s with hn | ⟨op, rest, hi⟩
  · rw [charge_of_noMove hn]
    split
    · next hc => exact hc.2.2.2
    · exact h.budgetNonneg
  · exact (charge_of_move hi).trans_le h.budgetNonneg

/-- A move of the host either abandons the frame or leaves the budget. -/
theorem hostOp_abandons_or_keeps_budget (s : State) (op : HostOp) :
    (s.hostOp op).phase = .frameStart ∨ (s.hostOp op).budget = s.budget := by
  have hc := hostOp_cases s op
  generalize s.hostOp op = t at hc
  cases hc with
  | reset rom accurate hrom => exact .inl rfl
  | _ => exact .inr rfl

/-- Inside a frame a step takes what it charges from the budget. -/
theorem charge_add_budget {s t : State} (hstep : step s = .next t) (hs : s.phase ≠ .frameStart)
    (ht : t.phase ≠ .frameStart) : charge s + t.budget = s.budget := by
  cases step_cases hstep with
  | move op rest hi hmove =>
    subst hmove
    rw [charge_of_move hi, zero_add]
    exact (hostOp_abandons_or_keeps_budget (s.setInputs rest) op).resolve_left ht
  | idle hn hf hr hidle =>
    subst hidle
    simp [charge_of_noMove hn, hr]
  | frameStart hn hl hp _ => exact absurd hp hs
  | frameEnd hn hl hp hend =>
    subst hend
    exact absurd rfl ht
  | approximate hn hl left hp u he hnext =>
    have hbudget := execDecoded_budget he
    subst hnext
    rw [charge_of_phase_ne (by simp [hp]), zero_add]
    exact hbudget
  | approximateFault hn hl left hp f he hnext =>
    subst hnext
    rw [charge_of_phase_ne (by simp [hp]), zero_add]
    rfl
  | accurate hn hl hp hd u he hnext | accurateStall hn hl hp hd u he hnext | accurateFault hn hl hp hd f he hnext =>
    subst hnext
    rw [charge_of_executes hn hl hp hd]
    exact add_sub_cancel _ _

theorem frameTime_nonneg (k : Nat) (s : State) : 0 ≤ frameTime k s := by
  induction k generalizing s with
  | zero => exact le_refl _
  | succ k ih =>
    rw [frameTime]
    split
    · refine add_nonneg (charge_nonneg s) ?_
      split
      · exact le_refl _
      · exact ih _
    all_goals exact charge_nonneg s

theorem frameTime_le_budget (k : Nat) {s : State} (h : Inv s) (hp : s.phase ≠ .frameStart) :
    frameTime k s ≤ s.budget := by
  induction k generalizing s with
  | zero => exact h.budgetNonneg
  | succ k ih =>
    rw [frameTime]
    split
    · next t hstep =>
      split
      · simpa using charge_le_budget h
      · next ht =>
        rw [← charge_add_budget hstep hp ht]
        exact add_le_add_right (ih (stepKeepsTheInvariant s t h hstep) ht) _
    all_goals exact charge_le_budget h

/-- Settles O46: the step that begins the frame charges nothing, and from there on the budget, which is at most a
frame, bounds what the frame executes. -/
theorem frameExecutesAtMostItsBudget : Obligations.FrameExecutesAtMostItsBudget := by
  intro s k h hp
  refine ⟨frameTime_nonneg k s, (?_ : frameTime k s ≤ frameUs)⟩
  have hcharge : charge s = 0 := charge_of_phase_ne (by simp [hp])
  cases k with
  | zero => exact frameUs_pos.le
  | succ k =>
    rw [frameTime, hcharge]
    split
    · next t hstep =>
      have ht : Inv t := stepKeepsTheInvariant s t h hstep
      rw [zero_add]
      split
      · exact frameUs_pos.le
      · next hphase => exact (frameTime_le_budget k ht hphase).trans ht.budgetLe
    all_goals exact frameUs_pos.le

/-! ## The halt idiom (R141) -/

/-- From `s` to `t` only the timers, the sound state, the outputs and the loop's bookkeeping changed. -/
def WritesOnlyLoopFields (s t : State) : Prop :=
  ∃ dt st audioOn outputs phase budget,
    t = { s with dt := dt, st := st, audioOn := audioOn, outputs := outputs, phase := phase, budget := budget }

theorem WritesOnlyLoopFields.refl (s : State) : WritesOnlyLoopFields s s := ⟨_, _, _, _, _, _, rfl⟩

theorem WritesOnlyLoopFields.trans {s t u : State} (hst : WritesOnlyLoopFields s t) (htu : WritesOnlyLoopFields t u) :
    WritesOnlyLoopFields s u := by
  obtain ⟨_, _, _, _, _, _, rfl⟩ := hst
  obtain ⟨_, _, _, _, _, _, rfl⟩ := htu
  exact ⟨_, _, _, _, _, _, rfl⟩

/-- The block runs, with no move of the host to come, at a jump to its own address. -/
structure Halted (s : State) : Prop where
  live : Live s
  noInputs : s.inputs = []
  jump : decode s.fetch = .instr (.jp s.pc)

theorem Halted.of_writes {s t : State} (h : Halted s) (ht : WritesOnlyLoopFields s t) : Halted t := by
  obtain ⟨_, _, _, _, _, _, rfl⟩ := ht
  exact ⟨h.live, h.noInputs, h.jump⟩

theorem Halted.step {s : State} (h : Halted s) : ∃ t, step s = .next t ∧ WritesOnlyLoopFields s t := by
  obtain ⟨t, hstep⟩ := exists_step_of_live h.live (.inl h.noInputs)
  refine ⟨t, hstep, ?_⟩
  have hself : afterBoundary s = s := afterBoundary_of_nil h.noInputs
  have hjump : execDecoded (decode s.fetch) (afterBoundary s) = .next s := by
    rw [hself, h.jump]
    rfl
  cases step_cases hstep with
  | move op rest hi ht => exact absurd (h.noInputs.symm.trans hi) (by simp)
  | idle hn hf hr ht => exact absurd h.live.1 hr
  | frameStart hn hl hp ht =>
    rw [ht, hself, State.beginFrame_eq]
    exact ⟨_, _, _, _, _, _, rfl⟩
  | frameEnd hn hl hp ht =>
    rw [ht, hself, State.finishFrame_eq]
    exact ⟨_, _, _, _, _, _, rfl⟩
  | approximate hn hl left hp u he ht | accurate hn hl hp hd u he ht | accurateStall hn hl hp hd u he ht =>
    cases hjump.symm.trans he
    exact ht ▸ ⟨_, _, _, _, _, _, rfl⟩
  | approximateFault hn hl left hp f he ht | accurateFault hn hl hp hd f he ht => cases hjump.symm.trans he

theorem Halted.run {s : State} (h : Halted s) (k : Nat) :
    ∃ t, Host.Core.run core k s = .next t ∧ WritesOnlyLoopFields s t := by
  induction k generalizing s with
  | zero => exact ⟨s, rfl, .refl s⟩
  | succ k ih =>
    obtain ⟨t, hstep, ht⟩ := h.step
    obtain ⟨u, hrun, hu⟩ := ih (h.of_writes ht)
    exact ⟨u, (run_succ_of_step hstep k).trans hrun, ht.trans hu⟩

/-- Settles O49: a jump to its own address leaves the state it began in, so that only the loop's own events write. -/
theorem haltIdiomKeepsTheState : Obligations.HaltIdiomKeepsTheState := by
  intro s k hl hi hjump
  have h : Halted s := ⟨hl, hi, by rw [hjump]; exact decode_encode (.jp s.pc) rfl⟩
  obtain ⟨t, hrun, _, _, _, _, _, _, rfl⟩ := h.run k
  exact ⟨_, hrun, rfl⟩

end Sys2Proof.Machine
end
